-- ==== Sys2Proof/Word.lean ====
section
/-! DEFINITION. The word types of the LS-8 core: bytes, program-counter words, register names
(spec/00_scope.md R7, R9, R11, R12). -/

namespace Sys2Proof

/-- A register, a memory byte or an operand byte: 8 bits, unsigned (R7, R12). -/
abbrev Byte := BitVec 8

/-- A program-counter word: 9 bits, values 0..256 (R9, R26). -/
abbrev PcWord := BitVec 9

/-- One of the eight general registers `R0` to `R7`, by index (R7, R21). -/
abbrev RegName := Fin 8

end Sys2Proof
end

