-- ==== Sys2Proof/Syntax.lean ====
section
/-! DEFINITION. The instructions of the LS-8 core, one constructor for each row of
spec/opcode_table.json (spec/30_encoding.md R82, R87). -/

namespace Sys2Proof

/-- The 18 instructions. A register operand is the raw selector byte of the encoding: every byte
value is accepted at decode, and a value of 8 or more is refused when the instruction runs
(R84, R102). `rA` is operandA, `rB` operandB, `imm8` the immediate of LDI (R82, R85). -/
inductive Instr where
  /-- R180 -/ | hlt
  /-- R165 -/ | ret
  /-- R181 -/ | prn (rA : Byte)
  /-- R164 -/ | call (rA : Byte)
  /-- R152 -/ | pop (rA : Byte)
  /-- R151 -/ | push (rA : Byte)
  /-- R161 -/ | jmp (rA : Byte)
  /-- R162 -/ | jeq (rA : Byte)
  /-- R163 -/ | jne (rA : Byte)
  /-- R125 -/ | inc (rA : Byte)
  /-- R126 -/ | dec (rA : Byte)
  /-- R140 -/ | ldi (rA imm8 : Byte)
  /-- R141 -/ | st (rA rB : Byte)
  /-- R127 -/ | cmp (rA rB : Byte)
  /-- R121 -/ | add (rA rB : Byte)
  /-- R122 -/ | sub (rA rB : Byte)
  /-- R123 -/ | mul (rA rB : Byte)
  /-- R124 -/ | div (rA rB : Byte)
  deriving DecidableEq, Repr

/-- The operand bytes of an instruction that are register selectors, in encoding order (R82, R202).
The immediate of LDI is none. -/
def Instr.selectors : Instr → List Byte
  | .hlt => []
  | .ret => []
  | .prn rA => [rA]
  | .call rA => [rA]
  | .pop rA => [rA]
  | .push rA => [rA]
  | .jmp rA => [rA]
  | .jeq rA => [rA]
  | .jne rA => [rA]
  | .inc rA => [rA]
  | .dec rA => [rA]
  | .ldi rA _ => [rA]
  | .st rA rB => [rA, rB]
  | .cmp rA rB => [rA, rB]
  | .add rA rB => [rA, rB]
  | .sub rA rB => [rA, rB]
  | .mul rA rB => [rA, rB]
  | .div rA rB => [rA, rB]

/-- The table's mnemonic (R87). -/
def Instr.mnemonic : Instr → String
  | .hlt => "HLT"
  | .ret => "RET"
  | .prn _ => "PRN"
  | .call _ => "CALL"
  | .pop _ => "POP"
  | .push _ => "PUSH"
  | .jmp _ => "JMP"
  | .jeq _ => "JEQ"
  | .jne _ => "JNE"
  | .inc _ => "INC"
  | .dec _ => "DEC"
  | .ldi _ _ => "LDI"
  | .st _ _ => "ST"
  | .cmp _ _ => "CMP"
  | .add _ _ => "ADD"
  | .sub _ _ => "SUB"
  | .mul _ _ => "MUL"
  | .div _ _ => "DIV"

end Sys2Proof
end

