-- ==== Sys2Proof/Decode.lean ====
section
/-! DEFINITION. Decoding, total on any bytes and rejecting by name, and encoding, both written from
the opcode map of spec/30_encoding.md (R80 to R93, R102). -/

namespace Sys2Proof

/-- Why the decoder gives no instruction. -/
inductive Reject where
  /-- The opcode byte is none of the 18 of R87 (R88). -/
  | illegalOpcode (op : Byte)
  /-- The byte list ends before the instruction does. It never arises in a tick, which always
  fetches three bytes (R95). -/
  | truncated
  deriving DecidableEq, Repr

/-- The number of operand bytes an opcode announces: `op[7:6]` (R81). -/
def operandCount (op : Byte) : Nat := (op >>> 6).toNat

/-- `LEN(op) = op[7:6] + 1` (R81). -/
def instrLength (op : Byte) : Nat := operandCount op + 1

/-- The decoder: the opcode byte is matched as a whole (R83) against the map of R87; every value of
the operand bytes is accepted (R102), and one the format does not use is ignored (R86). -/
def decodeFetched (op opA opB : Byte) : Except Reject Instr :=
  match op with
  | 0x01#8 => .ok .hlt
  | 0x09#8 => .ok .ret
  | 0x43#8 => .ok (.prn opA)
  | 0x48#8 => .ok (.call opA)
  | 0x4C#8 => .ok (.pop opA)
  | 0x4D#8 => .ok (.push opA)
  | 0x50#8 => .ok (.jmp opA)
  | 0x51#8 => .ok (.jeq opA)
  | 0x52#8 => .ok (.jne opA)
  | 0x78#8 => .ok (.inc opA)
  | 0x79#8 => .ok (.dec opA)
  | 0x99#8 => .ok (.ldi opA opB)
  | 0x9A#8 => .ok (.st opA opB)
  | 0xA0#8 => .ok (.cmp opA opB)
  | 0xA8#8 => .ok (.add opA opB)
  | 0xA9#8 => .ok (.sub opA opB)
  | 0xAA#8 => .ok (.mul opA opB)
  | 0xAB#8 => .ok (.div opA opB)
  | _ => .error (.illegalOpcode op)

/-- The instruction at the head of a byte list, with the rest of the list (R80, R81). -/
def decode : List Byte → Except Reject (Instr × List Byte)
  | [] => .error .truncated
  | op :: rest =>
    match decodeFetched op (rest.getD 0 0#8) (rest.getD 1 0#8) with
    | .error e => .error e
    | .ok i =>
      if rest.length < operandCount op then .error .truncated
      else .ok (i, rest.drop (operandCount op))

/-- Byte `k` of a table word: the table numbers bit 0 as the least significant bit of the first byte. -/
def tableByte (w k : Nat) : Byte := BitVec.ofNat 8 (w / 2 ^ (8 * k))

/-- The three bytes of a table word of `nbits` bits, every bit above `nbits` zero, in the order in
which they lie in memory (R57). -/
def tableBytes (nbits w : Nat) : List Byte :=
  [tableByte (w % 2 ^ nbits) 0, tableByte (w % 2 ^ nbits) 1, tableByte (w % 2 ^ nbits) 2]

/-- What the decoder reads from an instruction given as a table word. -/
def decodeTableWord (nbits w : Nat) : Option Instr :=
  match decode (tableBytes nbits w) with
  | .error _ => none
  | .ok (i, _) => some i

/-- The opcode byte of an instruction (R87). -/
def Instr.opcode : Instr → Byte
  | .hlt => 0x01#8
  | .ret => 0x09#8
  | .prn _ => 0x43#8
  | .call _ => 0x48#8
  | .pop _ => 0x4C#8
  | .push _ => 0x4D#8
  | .jmp _ => 0x50#8
  | .jeq _ => 0x51#8
  | .jne _ => 0x52#8
  | .inc _ => 0x78#8
  | .dec _ => 0x79#8
  | .ldi _ _ => 0x99#8
  | .st _ _ => 0x9A#8
  | .cmp _ _ => 0xA0#8
  | .add _ _ => 0xA8#8
  | .sub _ _ => 0xA9#8
  | .mul _ _ => 0xAA#8
  | .div _ _ => 0xAB#8

/-- The operand bytes of an instruction, in encoding order (R80, R82). -/
def Instr.operands : Instr → List Byte
  | .hlt => []
  | .ret => []
  | .prn rA => [rA]
  | .call rA => [rA]
  | .pop rA => [rA]
  | .push rA => [rA]
  | .jmp rA => [rA]
  | .jeq rA => [rA]
  | .jne rA => [rA]
  | .inc rA => [rA]
  | .dec rA => [rA]
  | .ldi rA imm8 => [rA, imm8]
  | .st rA rB => [rA, rB]
  | .cmp rA rB => [rA, rB]
  | .add rA rB => [rA, rB]
  | .sub rA rB => [rA, rB]
  | .mul rA rB => [rA, rB]
  | .div rA rB => [rA, rB]

/-- The bytes of an instruction: the opcode, then its operand bytes (R80). -/
def encode (i : Instr) : List Byte := i.opcode :: i.operands

/-- PCSET, the instructions that write pc themselves, so that the tick adds nothing (R93). -/
def Instr.setsPc : Instr → Bool
  | .hlt => false
  | .ret => true
  | .prn _ => false
  | .call _ => true
  | .pop _ => false
  | .push _ => false
  | .jmp _ => true
  | .jeq _ => true
  | .jne _ => true
  | .inc _ => false
  | .dec _ => false
  | .ldi _ _ => false
  | .st _ _ => false
  | .cmp _ _ => false
  | .add _ _ => false
  | .sub _ _ => false
  | .mul _ _ => false
  | .div _ _ => false

end Sys2Proof
end

