-- ==== Sys2Proof/Config.lean ====
section
/-! DEFINITION. The parameters of the LS-8 core that the spec fixes (spec/00_scope.md, section 3).
CLOCK_PERIOD (R10) has no value in the spec and no rule reads it, so it has no field here (log 20).
The spec leaves no result value open, so there is no free value. -/

namespace Sys2Proof.Config

/-- MEM_SIZE, the number of bytes of memory (R6, decision D1). -/
abbrev memSize : Nat := 256

/-- NUM_REGS, the number of general registers (R7). -/
abbrev numRegs : Nat := 8

/-- SP_INDEX: `R7` is the stack pointer (R8). -/
def spIndex : RegName := 7

/-- SP_INIT, the stack pointer at reset (R8, R24). -/
def spInit : Byte := 244#8

/-- REG_INIT, registers R0 to R6 at reset (R24, decision D3). -/
def regInit : Byte := 0#8

/-- PC_INIT, the program counter at reset (R31, decision D2). -/
def pcInit : PcWord := 0#9

/-- FL_INIT, the flags register at reset (R40, decision D4). -/
def flInit : Byte := 0#8

/-- What a memory byte that nothing has written reads as: memory is zero-initialised (R51). -/
def unlistedByte : Byte := 0#8

end Sys2Proof.Config
end

