-- ==== Sys2Proof/Machine/State.lean ====
section
/-! DEFINITION. The architectural state of the LS-8 core, its reset value, and the reasons a tick can
raise (spec/10_state.md R20 to R42, spec/60_exceptions.md R200, spec/70_reset_and_hazards.md R240). -/

namespace Sys2Proof.Machine

/-- The run state (R36). -/
inductive RunState where
  | running
  | halted
  deriving DecidableEq, Repr

/-- Why the core is HALTED (R36). -/
inductive HaltCause where
  /-- NONE: the core is RUNNING. -/
  | none
  /-- HLT: an HLT was executed (R180). -/
  | hlt
  /-- FAULT: a tick raised a fault (R205). -/
  | fault
  deriving DecidableEq, Repr

/-- The cause code in the fault record (R200). The spec numbers the codes and gives the field no
width, so the model names them and `FaultCode.number` in Ops.lean gives the number.
DESIGN CHOICE, safe (log 5). -/
inductive FaultCode where
  | none
  | outOfBoundsMem
  | outOfBoundsReg
  | illegalInstruction
  | divideByZero
  deriving DecidableEq, Repr

/-- The fault record `{fault_code, fault_pc, fault_info}` (R38). -/
structure FaultRecord where
  code : FaultCode
  pc   : PcWord
  info : BitVec 9
  deriving DecidableEq, Repr

/-- Memory: (address, byte) pairs in canonical form, see `Memory.wf` in Ops.lean (R50). -/
abbrev Memory := List Host.Cell

/-- The spec's faults: what the body of a tick can raise (R200). A raise is never an outcome of
`step`: the tick TAKES it by the fault entry of R205 (`State.takeFault`), which gives a next state.
So no run stops here, and the constructors are safe (log 1). -/
inductive Fault where
  /-- Raised by a memory read or write at an address of MEM_SIZE or more (R201): at 256 bytes only by
  a fetch (R56). Safe. -/
  | outOfBoundsMem (addr : Nat)
  /-- Raised by a register selector of 8 or more, in every instruction with a register operand
  (R202). Safe. -/
  | outOfBoundsReg (sel : Byte)
  /-- Raised by a tick whose opcode byte is none of the 18 (R203). Safe. -/
  | illegalInstruction (op : Byte)
  /-- Raised by DIV when the divisor register holds 0 (R204). Safe. -/
  | divideByZero (divisor : RegName)
  deriving DecidableEq, Repr

/-- Why the model gives an instruction no meaning. -/
inductive Refusal where
  /-- Raised by an arm of `exec` for an instruction that has no meaning yet. No arm does: all 18 have
  theirs. Safe. -/
  | notModelled (mnemonic : String)
  deriving DecidableEq, Repr

/-- The state of the core, and nothing else (R20). -/
structure State where
  /-- `x[0..7]`, with `x[7]` = SP (R21, R22). -/
  regs      : Vector Byte 8
  /-- The program counter (R26). -/
  pc        : PcWord
  /-- FL, the flags register: bit 0 E, bit 1 G, bit 2 L, bits 7:3 zero (R32). -/
  fl        : Byte
  /-- `M[0..255]` (R50). -/
  mem       : Memory
  /-- RUNNING or HALTED (R36). -/
  run       : RunState
  /-- `halt_cause` (R36). -/
  haltCause : HaltCause
  /-- `clock_on`: whether the clock driver is issuing ticks (R37). -/
  clockOn   : Bool
  /-- The fault record (R38). -/
  fault     : FaultRecord
  /-- The output log `out`, oldest byte first (R39). -/
  out       : List Byte
  deriving DecidableEq, Repr

/-- The fault record at reset: code 0, pc 0, info 0 (R38). -/
def FaultRecord.empty : FaultRecord := ⟨.none, 0#9, 0#9⟩

/-- The machine right after construction (R240). -/
def State.reset : State where
  regs      := (Vector.replicate 8 Config.regInit).set 7 Config.spInit
  pc        := Config.pcInit
  fl        := Config.flInit
  mem       := []
  run       := .running
  haltCause := .none
  clockOn   := false
  fault     := FaultRecord.empty
  out       := []

end Sys2Proof.Machine
end

