-- ==== Sys2Proof/Machine/Ops.lean ====
section
/-! DEFINITION. The operations every meaning is built from: registers, memory, output, halting, the
fault entry, and the completion of a tick (spec/00_scope.md R13 to R16, spec/20_memory.md,
spec/60_exceptions.md R205). -/

namespace Sys2Proof.Machine

/-! ### Registers (R13, R21 to R23) -/

/-- `x[r]`. No register is hardwired (R23). -/
def State.reg (s : State) (r : RegName) : Byte := s.regs[r.val]

/-- `x[r] <- v`. -/
def State.setReg (s : State) (r : RegName) (v : Byte) : State :=
  { s with regs := s.regs.set r.val v }

/-- SP, another name for `x[7]` (R13, R22). -/
def State.sp (s : State) : Byte := s.reg Config.spIndex

/-- `SP <- v`. -/
def State.setSp (s : State) (v : Byte) : State := s.setReg Config.spIndex v

/-- `pc <- target`. -/
def State.setPc (s : State) (target : PcWord) : State := { s with pc := target }

/-- `FL <- v`. -/
def State.setFl (s : State) (v : Byte) : State := { s with fl := v }

/-! ### The memory array (R50 to R54) -/

/-- `M[a]`: the listed byte, or what an unlisted address reads as (R51). -/
def Memory.read : Memory → Nat → Byte
  | [], _ => Config.unlistedByte
  | (k, v) :: m, a => if k = a then v else Memory.read m a

/-- Puts a cell before the first cell of a higher address. -/
def Memory.insert (a : Nat) (v : Byte) : Memory → Memory
  | [] => [(a, v)]
  | (k, w) :: m => if a < k then (a, v) :: (k, w) :: m else (k, w) :: Memory.insert a v m

/-- Removes every cell at `a`. -/
def Memory.erase (a : Nat) : Memory → Memory
  | [] => []
  | (k, w) :: m => if k = a then Memory.erase a m else (k, w) :: Memory.erase a m

/-- `M[a] <- v`, in canonical form: writing what an unlisted address reads as removes the entry. -/
def Memory.write (m : Memory) (a : Nat) (v : Byte) : Memory :=
  if v = Config.unlistedByte then Memory.erase a m else Memory.insert a v (Memory.erase a m)

/-- Every cell's address is above `lo`. -/
def Memory.above (lo : Nat) : Memory → Bool
  | [] => true
  | (k, _) :: m => decide (lo < k) && Memory.above lo m

/-- The canonical form: addresses strictly rising and inside the memory, no entry equal to what an
unlisted address reads as. -/
def Memory.wf : Memory → Bool
  | [] => true
  | (k, v) :: m =>
    decide (k < Config.memSize) && decide (v ≠ Config.unlistedByte) && Memory.above k m && Memory.wf m

/-- `MemRead(addr, 1)` (R52). -/
def memRead (s : State) (addr : Nat) : Except Fault Byte :=
  if addr < Config.memSize then .ok (s.mem.read addr) else .error (.outOfBoundsMem addr)

/-- `MemWrite(addr, 1, v)`: stores `v mod 256` (R53). -/
def memWrite (s : State) (addr : Nat) (v : Nat) : Except Fault State :=
  if addr < Config.memSize then .ok { s with mem := s.mem.write addr (BitVec.ofNat 8 v) }
  else .error (.outOfBoundsMem addr)

/-! ### Stack pointer arithmetic (R61, R62, R150) -/

/-- `SP <- (SP - 1) mod 256`. -/
def State.decSp (s : State) : State := s.setSp (s.sp - 1#8)

/-- `SP <- (SP + 1) mod 256`. -/
def State.incSp (s : State) : State := s.setSp (s.sp + 1#8)

/-! ### Output and halting -/

/-- `emit(v)`: appends `v` to the output log (R39, R215). -/
def State.emit (s : State) (v : Byte) : State := { s with out := s.out ++ [v] }

/-- `halt(HLT)` (R180). -/
def State.haltHlt (s : State) : State :=
  { s with run := .halted, haltCause := .hlt, clockOn := false }

/-! ### Taking a fault (R200, R205, R206)

There is no return from a fault: HALTED is terminal and no trap-return instruction exists (R207). -/

/-- The number of a cause code (R200). -/
def FaultCode.number : FaultCode → Nat
  | .none => 0
  | .outOfBoundsMem => 1
  | .outOfBoundsReg => 2
  | .illegalInstruction => 3
  | .divideByZero => 4

/-- `code(F)` (R200). -/
def Fault.code : Fault → FaultCode
  | .outOfBoundsMem _ => .outOfBoundsMem
  | .outOfBoundsReg _ => .outOfBoundsReg
  | .illegalInstruction _ => .illegalInstruction
  | .divideByZero _ => .divideByZero

/-- `fault_info`: the address, the selector, the opcode, or the divisor's register index (R200 to
R204), in the 9 bits the widest of them needs. DEDUCED, safe (log 6). -/
def Fault.info : Fault → BitVec 9
  | .outOfBoundsMem addr => BitVec.ofNat 9 addr
  | .outOfBoundsReg sel => sel.setWidth 9
  | .illegalInstruction op => op.setWidth 9
  | .divideByZero divisor => BitVec.ofNat 9 divisor.val

/-- The fault entry (R205), from the state `s` at the start of the tick: nothing the tick wrote
survives, so pc is still `p` (R206). -/
def State.takeFault (s : State) (f : Fault) : State :=
  { s with
    run := .halted
    haltCause := .fault
    clockOn := false
    fault := ⟨f.code, s.pc, f.info⟩ }

/-! ### Completing a tick (R15, R95 step 4, R97) -/

/-- The default advance `pc <- p + LEN(op)`, for an instruction outside PCSET (R97). -/
def State.advance (t : State) (i : Instr) (p : PcWord) : State :=
  if i.setsPc then t else t.setPc (p + BitVec.ofNat 9 (instrLength i.opcode))

/-- The end of a tick that runs `i` from `s`: a raise discards the working copy and takes the fault;
otherwise the copy is committed after the default advance (R15, R95). -/
def completeTick (i : Instr) (s : State) (body : Except Fault State) :
    Host.Outcome State Fault Refusal :=
  match body with
  | .error f => .next (s.takeFault f)
  | .ok t => .next (t.advance i s.pc)

end Sys2Proof.Machine
end

