-- ==== Sys2Proof/Machine/Flags.lean ====
section
/-! DEFINITION. The flags register: its fields, CMP's computation of it, and the test of JEQ and JNE
(spec/10_state.md R32 to R35, spec/40_alu.md R127). No other instruction touches FL. -/

namespace Sys2Proof.Machine

/-- FL with only E (bit 0) set. -/
def flagsEqual : Byte := 0x01#8

/-- FL with only G (bit 1) set. -/
def flagsGreater : Byte := 0x02#8

/-- FL with only L (bit 2) set. -/
def flagsLess : Byte := 0x04#8

/-- The FL that CMP writes for `x[rA] = a`, `x[rB] = b`: an unsigned comparison (R127). -/
def compareFlags (a b : Byte) : Byte :=
  if a = b then flagsEqual else if a.toNat < b.toNat then flagsLess else flagsGreater

/-- "Flags==EQUAL": the whole register is compared with 0x01 (R35, R162). -/
def State.equalHeld (s : State) : Bool := decide (s.fl = flagsEqual)

/-- Bit 0, E (R32). -/
def State.flagE (s : State) : Bool := s.fl.getLsbD 0

/-- Bit 1, G (R32). -/
def State.flagG (s : State) : Bool := s.fl.getLsbD 1

/-- Bit 2, L (R32). -/
def State.flagL (s : State) : Bool := s.fl.getLsbD 2

end Sys2Proof.Machine
end

