-- ==== Sys2Proof/Machine/Operands.lean ====
section
/-! DEFINITION. The operand forms: the register selector and the immediate, the only two the
instruction set has (spec/30_encoding.md R84, R85). -/

namespace Sys2Proof.Machine

/-- `RegIdx(b)` (R13, R84): the whole operand byte is the index; 8 or more raises OutOfBounds(REG). -/
def regIdx (b : Byte) : Except Fault RegName :=
  if h : b.toNat < 8 then .ok ⟨b.toNat, h⟩ else .error (.outOfBoundsReg b)

/-- `RegIdx(opA)` then `RegIdx(opB)`: opA is checked first (R120, R208). -/
def regPair (opA opB : Byte) : Except Fault (RegName × RegName) := do
  let a ← regIdx opA
  let b ← regIdx opB
  .ok (a, b)

/-- The immediate of LDI: the whole byte, unsigned, with no extension, scaling or check (R85). -/
def immediate (opB : Byte) : Byte := opB

end Sys2Proof.Machine
end

