-- ==== Sys2Proof/Machine/Alu.lean ====
section
/-! DEFINITION. The ALU instructions ADD, SUB, MUL, DIV, INC, DEC, CMP (spec/40_alu.md R120 to R128).
Results are exact and then reduced modulo 256. -/

namespace Sys2Proof.Machine

/-- The shared shape of ADD, SUB and MUL: check opA, check opB, then `x[a] <- f(x[a], x[b])` (R120). -/
def aluTwoReg (f : Byte → Byte → Byte) (rA rB : Byte) (s : State) : Except Fault State := do
  let (a, b) ← regPair rA rB
  .ok (s.setReg a (f (s.reg a) (s.reg b)))

/-- The shared shape of INC and DEC (R120). -/
def aluOneReg (f : Byte → Byte) (rA : Byte) (s : State) : Except Fault State := do
  let a ← regIdx rA
  .ok (s.setReg a (f (s.reg a)))

/-- ADD (R121). -/
def execAdd (rA rB : Byte) (s : State) : Host.Outcome State Fault Refusal :=
  completeTick (.add rA rB) s (aluTwoReg (fun x y => x + y) rA rB s)

/-- SUB (R122). -/
def execSub (rA rB : Byte) (s : State) : Host.Outcome State Fault Refusal :=
  completeTick (.sub rA rB) s (aluTwoReg (fun x y => x - y) rA rB s)

/-- MUL: the low byte of the product (R123). -/
def execMul (rA rB : Byte) (s : State) : Host.Outcome State Fault Refusal :=
  completeTick (.mul rA rB) s (aluTwoReg (fun x y => x * y) rA rB s)

/-- DIV: the unsigned floor quotient; a zero divisor raises DivideByZero with the index of the divisor
register, and nothing is written (R124). -/
def execDiv (rA rB : Byte) (s : State) : Host.Outcome State Fault Refusal :=
  completeTick (.div rA rB) s do
    let (a, b) ← regPair rA rB
    if s.reg b = 0#8 then .error (.divideByZero b)
    else .ok (s.setReg a (BitVec.ofNat 8 ((s.reg a).toNat / (s.reg b).toNat)))

/-- INC (R125). -/
def execInc (rA : Byte) (s : State) : Host.Outcome State Fault Refusal :=
  completeTick (.inc rA) s (aluOneReg (fun x => x + 1#8) rA s)

/-- DEC (R126). -/
def execDec (rA : Byte) (s : State) : Host.Outcome State Fault Refusal :=
  completeTick (.dec rA) s (aluOneReg (fun x => x + 255#8) rA s)

/-- CMP: writes all of FL and no register (R127). -/
def execCmp (rA rB : Byte) (s : State) : Host.Outcome State Fault Refusal :=
  completeTick (.cmp rA rB) s do
    let (a, b) ← regPair rA rB
    .ok (s.setFl (compareFlags (s.reg a) (s.reg b)))

end Sys2Proof.Machine
end

