-- ==== Sys2Proof/Machine/Control.lean ====
section
/-! DEFINITION. The control transfer instructions JMP, JEQ, JNE, CALL, RET (spec/43_control.md R160 to
R166). All five are in PCSET: each writes pc itself, from `p = s.pc` (R27, R93). -/

namespace Sys2Proof.Machine

/-- A register or memory byte as a target address: zero-extended (R29, R160). -/
def targetPc (v : Byte) : PcWord := BitVec.ofNat 9 v.toNat

/-- The fall-through of the 2-byte conditional jumps: `p + 2` (R162, R163). -/
def fallThrough (s : State) : PcWord := s.pc + 2#9

/-- JMP (R161). -/
def execJmp (rA : Byte) (s : State) : Host.Outcome State Fault Refusal :=
  completeTick (.jmp rA) s do
    let a ← regIdx rA
    .ok (s.setPc (targetPc (s.reg a)))

/-- JEQ: the selector is checked whether or not the branch is taken (R160, R162). -/
def execJeq (rA : Byte) (s : State) : Host.Outcome State Fault Refusal :=
  completeTick (.jeq rA) s do
    let a ← regIdx rA
    .ok (s.setPc (if s.equalHeld then targetPc (s.reg a) else fallThrough s))

/-- JNE: the selector is checked whether or not the branch is taken (R160, R163). -/
def execJne (rA : Byte) (s : State) : Host.Outcome State Fault Refusal :=
  completeTick (.jne rA) s do
    let a ← regIdx rA
    .ok (s.setPc (if s.equalHeld then fallThrough s else targetPc (s.reg a)))

/-- CALL: SP is decremented, the return address `p + 2` is stored at the new SP as one byte, then
`x[a]` is read for pc (R164). -/
def execCall (rA : Byte) (s : State) : Host.Outcome State Fault Refusal :=
  completeTick (.call rA) s do
    let a ← regIdx rA
    let t := s.decSp
    let u ← memWrite t t.sp.toNat (s.pc.toNat + 2)
    .ok (u.setPc (targetPc (u.reg a)))

/-- RET: pc is the byte at SP, then SP is incremented (R165). -/
def execRet (s : State) : Host.Outcome State Fault Refusal :=
  completeTick .ret s do
    let v ← memRead s s.sp.toNat
    .ok (s.setPc (targetPc v)).incSp

end Sys2Proof.Machine
end

