-- ==== Sys2Proof/Machine/DataMove.lean ====
section
/-! DEFINITION. The data movement instructions LDI and ST (spec/41_data.md R140, R141). -/

namespace Sys2Proof.Machine

/-- LDI: `x[a] <- opB` (R140). -/
def execLdi (rA imm8 : Byte) (s : State) : Host.Outcome State Fault Refusal :=
  completeTick (.ldi rA imm8) s do
    let a ← regIdx rA
    .ok (s.setReg a (immediate imm8))

/-- ST: `MemWrite(x[a], 1, x[b])` (R141). -/
def execSt (rA rB : Byte) (s : State) : Host.Outcome State Fault Refusal :=
  completeTick (.st rA rB) s do
    let (a, b) ← regPair rA rB
    memWrite s (s.reg a).toNat (s.reg b).toNat

end Sys2Proof.Machine
end

