-- ==== Sys2Proof/Machine/Stack.lean ====
section
/-! DEFINITION. The stack instructions PUSH and POP (spec/42_stack.md R150 to R152). The statements take
effect in the order written (R14), which decides the forms that name R7. -/

namespace Sys2Proof.Machine

/-- PUSH: SP is decremented, then `x[a]` is read and stored at the new SP (R151). -/
def execPush (rA : Byte) (s : State) : Host.Outcome State Fault Refusal :=
  completeTick (.push rA) s do
    let a ← regIdx rA
    let t := s.decSp
    memWrite t t.sp.toNat (t.reg a).toNat

/-- POP: the byte at SP is read, written to `x[a]`, then SP is incremented (R152). -/
def execPop (rA : Byte) (s : State) : Host.Outcome State Fault Refusal :=
  completeTick (.pop rA) s do
    let a ← regIdx rA
    let v ← memRead s s.sp.toNat
    .ok (s.setReg a v).incSp

end Sys2Proof.Machine
end

