-- ==== Sys2Proof/Machine/SystemOut.lean ====
section
/-! DEFINITION. The system and output instructions HLT and PRN (spec/44_system.md R180, R181). -/

namespace Sys2Proof.Machine

/-- HLT: `halt(HLT)`; pc then advances by 1, since HLT is not in PCSET (R180). -/
def execHlt (s : State) : Host.Outcome State Fault Refusal :=
  completeTick .hlt s (.ok s.haltHlt)

/-- PRN: `emit(x[a])` (R181). -/
def execPrn (rA : Byte) (s : State) : Host.Outcome State Fault Refusal :=
  completeTick (.prn rA) s do
    let a ← regIdx rA
    .ok (s.emit (s.reg a))

end Sys2Proof.Machine
end

