-- ==== Sys2Proof/Machine/Dispatch.lean ====
section
/-! DEFINITION. The dispatch of step 3 of the tick: one arm for each instruction (spec/30_encoding.md
R95, R102). -/

namespace Sys2Proof.Machine

/-- Runs one decoded instruction as the rest of a tick that starts in `s`: its rule, the default
advance, and the commit or the fault entry (R95). It does not look at `run`: `step` does (log 19). -/
def exec (i : Instr) (s : State) : Host.Outcome State Fault Refusal :=
  match i with
  | .hlt => Sys2Proof.Machine.execHlt s
  | .ret => Sys2Proof.Machine.execRet s
  | .prn rA => Sys2Proof.Machine.execPrn rA s
  | .call rA => Sys2Proof.Machine.execCall rA s
  | .pop rA => Sys2Proof.Machine.execPop rA s
  | .push rA => Sys2Proof.Machine.execPush rA s
  | .jmp rA => Sys2Proof.Machine.execJmp rA s
  | .jeq rA => Sys2Proof.Machine.execJeq rA s
  | .jne rA => Sys2Proof.Machine.execJne rA s
  | .inc rA => Sys2Proof.Machine.execInc rA s
  | .dec rA => Sys2Proof.Machine.execDec rA s
  | .ldi rA imm8 => Sys2Proof.Machine.execLdi rA imm8 s
  | .st rA rB => Sys2Proof.Machine.execSt rA rB s
  | .cmp rA rB => Sys2Proof.Machine.execCmp rA rB s
  | .add rA rB => Sys2Proof.Machine.execAdd rA rB s
  | .sub rA rB => Sys2Proof.Machine.execSub rA rB s
  | .mul rA rB => Sys2Proof.Machine.execMul rA rB s
  | .div rA rB => Sys2Proof.Machine.execDiv rA rB s

end Sys2Proof.Machine
end

