-- ==== Sys2Proof/Machine/Fetch.lean ====
section
/-! DEFINITION. Steps 1 to 3 of the tick up to the dispatch: the three fetch reads and the decoding of
what they read (spec/30_encoding.md R88, R95, R96), and the placing of a table word where the next
fetch reads. -/

namespace Sys2Proof.Machine

/-- The operand latches `op`, `opA`, `opB` (R16, R41): they live only inside a tick. -/
structure Fetched where
  op  : Byte
  opA : Byte
  opB : Byte
  deriving DecidableEq, Repr

/-- The reads at p, p+1 and p+2, in that order, each bounds-checked, whatever the opcode (R95, R96). -/
def fetch (s : State) : Except Fault Fetched := do
  let op ← memRead s s.pc.toNat
  let opA ← memRead s (s.pc.toNat + 1)
  let opB ← memRead s (s.pc.toNat + 2)
  .ok ⟨op, opA, opB⟩

/-- The fetched instruction; an opcode byte that is none of the 18 raises IllegalInstruction (R88). -/
def fetchInstr (s : State) : Except Fault Instr := do
  let w ← fetch s
  match decodeFetched w.op w.opA w.opB with
  | .ok i => .ok i
  | .error _ => .error (.illegalInstruction w.op)

/-- Writes a byte list at consecutive addresses; an address that does not exist takes nothing. -/
def Memory.placeBytes (m : Memory) (a : Nat) : List Byte → Memory
  | [] => m
  | b :: bs => Memory.placeBytes (if a < Config.memSize then m.write a b else m) (a + 1) bs

end Sys2Proof.Machine
end

