-- ==== Sys2Proof/Machine/Step.lean ====
section
/-! DEFINITION. One tick request: the host's single step, which is the same tick as the clock's
(spec/30_encoding.md R94, R95, spec/60_exceptions.md R213). -/

namespace Sys2Proof.Machine

/-- One tick request. In HALTED no tick takes place and nothing changes (R94). In RUNNING one tick is
performed: fetch, decode, dispatch, advance, commit (R95); a raise takes the fault (R205). `clock_on`
says who asks for ticks and not what a tick does (R37), so the step does not read it (log 2). -/
def step (s : State) : Host.Outcome State Fault Refusal :=
  match s.run with
  | .halted => .next s
  | .running =>
    match fetchInstr s with
    | .error f => .next (s.takeFault f)
    | .ok i => exec i s

/-- `s` with the instruction of a table word stored at pc, where the next tick fetches: three bytes,
those above `nbits` zero. Nothing else changes (log 13); a byte whose address does not exist is not
stored, and a HALTED core still runs nothing (log 14). -/
def State.withFetchWord (s : State) (nbits w : Nat) : State :=
  { s with mem := s.mem.placeBytes s.pc.toNat (tableBytes nbits w) }

end Sys2Proof.Machine
end

