-- ==== Sys2Proof/WellFormed.lean ====
section
/-! DEFINITION. Well-formed instructions: those with an assembler spelling
(spec/30_encoding.md R84, R100). -/

namespace Sys2Proof

/-- Every register selector names one of the eight registers. An instruction that is not well-formed
still decodes (R102) and still runs: it raises OutOfBounds(REG) (R84, R202). It only has no assembler
spelling (R100). DEDUCED, safe (log 15). -/
def Instr.wellFormed (i : Instr) : Bool :=
  i.selectors.all fun sel => decide (sel.toNat < Config.numRegs)

end Sys2Proof
end

