-- ==== Sys2Proof/Machine/Assembly.lean ====
section
/-! DEFINITION. The text forms of a program: assembler lines (spec/30_encoding.md R99, R100) and the
machine-code listing (R101). They touch no machine rule (decision D22); the loader that reads a
listing is outside the core (spec/00_scope.md R4). Text is a list of characters. -/

namespace Sys2Proof.Machine

/-! ### Numbers and registers -/

/-- The value of a digit of base 2, 10 or 16. -/
def digitValue (c : Char) : Option Nat :=
  if '0' ≤ c ∧ c ≤ '9' then some (c.toNat - 48)
  else if 'a' ≤ c ∧ c ≤ 'f' then some (c.toNat - 87)
  else if 'A' ≤ c ∧ c ≤ 'F' then some (c.toNat - 55)
  else none

/-- Digits of a base, most significant first, after a value already read. -/
def numeralFrom (base acc : Nat) : List Char → Option Nat
  | [] => some acc
  | c :: cs =>
    match digitValue c with
    | some d => if d < base then numeralFrom base (acc * base + d) cs else none
    | none => none

/-- An unsigned number in decimal, `0x` hex or `0b` binary (R99). -/
def numberOfText : List Char → Option Nat
  | [] => none
  | '0' :: 'x' :: c :: cs => numeralFrom 16 0 (c :: cs)
  | '0' :: 'b' :: c :: cs => numeralFrom 2 0 (c :: cs)
  | c :: cs => numeralFrom 10 0 (c :: cs)

/-- `R0` to `R7`: the selector byte is the index (R99). -/
def registerOfText : List Char → Option Byte
  | ['R', c] =>
    match digitValue c with
    | some d => if d < 8 then some (BitVec.ofNat 8 d) else none
    | none => none
  | _ => none

/-- The immediate of LDI: an unsigned number 0..255 (R99). -/
def immediateOfText (cs : List Char) : Option Byte :=
  match numberOfText cs with
  | some n => if n < 256 then some (BitVec.ofNat 8 n) else none
  | none => none

/-! ### Assembler lines -/

/-- Splits at each comma. -/
def splitCommas : List Char → List (List Char)
  | [] => [[]]
  | c :: cs =>
    match splitCommas cs with
    | [] => [[c]]
    | w :: ws => if c = ',' then [] :: w :: ws else (c :: w) :: ws

/-- Takes spaces off both ends. DESIGN CHOICE, safe (log 16). -/
def trimSpaces (cs : List Char) : List Char :=
  ((cs.dropWhile (· = ' ')).reverse.dropWhile (· = ' ')).reverse

/-- The mnemonic of a line, then its operands (R99). -/
def lineWords (line : List Char) : List Char × List (List Char) :=
  let cs := trimSpaces line
  let rest := trimSpaces (cs.dropWhile (· ≠ ' '))
  (cs.takeWhile (· ≠ ' '),
    match rest with
    | [] => []
    | _ => (splitCommas rest).map trimSpaces)

/-- An instruction of no operand. -/
def assembleNone (i : Instr) : List (List Char) → Option Instr
  | [] => some i
  | _ => none

/-- An instruction of one register operand. -/
def assembleReg (f : Byte → Instr) : List (List Char) → Option Instr
  | [a] => (registerOfText a).map f
  | _ => none

/-- An instruction of two operands, the second read by `second`. -/
def assembleTwo (second : List Char → Option Byte) (f : Byte → Byte → Instr) :
    List (List Char) → Option Instr
  | [a, b] =>
    match registerOfText a, second b with
    | some x, some y => some (f x y)
    | _, _ => none
  | _ => none

/-- The instruction an assembler line stands for (R99); there are no pseudo-instructions (R100). One line
is one instruction: R99 gives `;` no meaning, though its example puts it between instructions and
spec/95_test_vectors.md before comments, and the model refuses a line that holds it.
DESIGN CHOICE, safe (log 16). -/
def assembleLine (line : List Char) : Option Instr :=
  let ops := (lineWords line).2
  match (lineWords line).1 with
  | ['H', 'L', 'T'] => assembleNone .hlt ops
  | ['R', 'E', 'T'] => assembleNone .ret ops
  | ['P', 'R', 'N'] => assembleReg .prn ops
  | ['C', 'A', 'L', 'L'] => assembleReg .call ops
  | ['P', 'O', 'P'] => assembleReg .pop ops
  | ['P', 'U', 'S', 'H'] => assembleReg .push ops
  | ['J', 'M', 'P'] => assembleReg .jmp ops
  | ['J', 'E', 'Q'] => assembleReg .jeq ops
  | ['J', 'N', 'E'] => assembleReg .jne ops
  | ['I', 'N', 'C'] => assembleReg .inc ops
  | ['D', 'E', 'C'] => assembleReg .dec ops
  | ['L', 'D', 'I'] => assembleTwo immediateOfText .ldi ops
  | ['S', 'T'] => assembleTwo registerOfText .st ops
  | ['C', 'M', 'P'] => assembleTwo registerOfText .cmp ops
  | ['A', 'D', 'D'] => assembleTwo registerOfText .add ops
  | ['S', 'U', 'B'] => assembleTwo registerOfText .sub ops
  | ['M', 'U', 'L'] => assembleTwo registerOfText .mul ops
  | ['D', 'I', 'V'] => assembleTwo registerOfText .div ops
  | _ => none

/-! ### The machine-code listing (R101) -/

/-- What one line of a listing is. -/
inductive ListingLine where
  /-- Eight binary digits, most significant first. -/
  | byte (b : Byte)
  /-- A line without a digit: a comment or a blank line, ignored. -/
  | ignored
  /-- Any other line: the source does not say how it is read (U16). -/
  | unsettled
  deriving DecidableEq, Repr

/-- Reads one line of a listing. DESIGN CHOICE, safe (log 17). -/
def listingLine (cs : List Char) : ListingLine :=
  if cs.length = 8 ∧ cs.all (fun c => c = '0' || c = '1') then
    match numeralFrom 2 0 cs with
    | some n => .byte (BitVec.ofNat 8 n)
    | none => .unsettled
  else if cs.any (fun c => '0' ≤ c && c ≤ '9') then .unsettled
  else .ignored

/-- The byte sequence of a listing; `none` where a line is unsettled, which is refused (U16). -/
def listingBytes : List (List Char) → Option (List Byte)
  | [] => some []
  | l :: ls =>
    match listingLine l, listingBytes ls with
    | .byte b, some bs => some (b :: bs)
    | .ignored, some bs => some bs
    | _, _ => none

/-- The byte list of a sequence of instructions, in order (R80, R99). -/
def programBytes (is : List Instr) : List Byte := is.flatMap encode

end Sys2Proof.Machine
end

