-- ==== Sys2Proof/Machine/HostPort.lean ====
section
/-! DEFINITION. The host's side of the core: construction, the load port, the clock driver, single
stepping, status read-back and the output port (spec/20_memory.md R69, spec/60_exceptions.md R212 to
R220, spec/70_reset_and_hazards.md R244). The host has no other move (R220). -/

namespace Sys2Proof.Machine

/-! ### The load port (R69) -/

/-- Writes the bytes at consecutive addresses from `addr`, each through `MemWrite`; the first write that
raises ends the load (R53, R69). The bytes written before it stay. DEDUCED, unsafe (log 9). -/
def State.loadFrom (s : State) (addr : Nat) : List Byte → State × Option Fault
  | [] => (s, none)
  | b :: bs =>
    match memWrite s addr b.toNat with
    | .error f => (s, some f)
    | .ok t => State.loadFrom t (addr + 1) bs

/-- The loader's writes: the i-th byte of the program goes to address i (R69). -/
def State.load (s : State) (program : List Byte) : State × Option Fault := s.loadFrom 0 program

/-! ### The clock driver (R212) -/

/-- Start: sets `clock_on` while RUNNING; a no-op when it is set already and in HALTED. -/
def State.clockStart (s : State) : State :=
  match s.run with
  | .running => { s with clockOn := true }
  | .halted => s

/-- Stop: clears `clock_on`; a no-op when it is clear already and in HALTED. -/
def State.clockStop (s : State) : State :=
  match s.run with
  | .running => { s with clockOn := false }
  | .halted => s

/-! ### Ticks on request (R94, R213) -/

/-- The state after one tick request. `step` answers a next state from every state, so the last two
arms are never taken. -/
def State.afterStep (s : State) : Option State :=
  match step s with
  | .next t => some t
  | .fault _ => none
  | .refused _ => none

/-- `n` tick requests, one after the other (R98, R213). -/
def State.ticks (s : State) : Nat → Host.Outcome State Fault Refusal
  | 0 => .next s
  | n + 1 =>
    match step s with
    | .next t => State.ticks t n
    | .fault f => .fault f
    | .refused r => .refused r

/-- `run_until_halt()` with fuel: `none` says that the fuel ran out, which is neither a halt nor a
fault (R213, R247, U17; log 21). -/
def State.runUntilHalt (s : State) : Nat → Option State
  | 0 =>
    match s.run with
    | .halted => some s
    | .running => none
  | fuel + 1 =>
    match s.run with
    | .halted => some s
    | .running =>
      match s.afterStep with
      | some t => State.runUntilHalt t fuel
      | none => none

/-! ### Status read-back and output (R214, R215) -/

/-- What the host reads between ticks (R214), memory apart. -/
structure Status where
  regs      : Vector Byte 8
  pc        : PcWord
  fl        : Byte
  run       : RunState
  haltCause : HaltCause
  clockOn   : Bool
  fault     : FaultRecord
  deriving DecidableEq, Repr

/-- Reading the status changes nothing: it is a function of the state (R214). -/
def State.status (s : State) : Status :=
  ⟨s.regs, s.pc, s.fl, s.run, s.haltCause, s.clockOn, s.fault⟩

/-- Reading one byte of memory by the host (R70, R214). -/
def State.hostReadByte (s : State) (addr : Nat) : Except Fault Byte := memRead s addr

/-- The output events between two states of a run, oldest first: what `out` has gained (R215). The log
itself keeps every event; consuming one removes nothing. DEDUCED, safe (log 12). -/
def outputEvents (before after : State) : List Byte := after.out.drop before.out.length

/-! ### A session: the core and the two facts the load port needs (R69, R220, R244) -/

/-- The core with what its host has done so far. `ticked` and `loadFailed` are no core state (R20): they
say which moves R69 still allows. -/
structure Session where
  core       : State
  /-- A tick has taken place, so the load port is closed. -/
  ticked     : Bool
  /-- A load ran past the end of memory, so the core is not started. -/
  loadFailed : Bool
  deriving DecidableEq, Repr

/-- The moves of R220 that can change the core. -/
inductive HostMove where
  /-- The loader writes a program. -/
  | load (program : List Byte)
  /-- The clock driver is started. -/
  | start
  /-- The clock driver is stopped. -/
  | stop
  /-- The running clock causes a tick. -/
  | clockTick
  /-- The host requests a single tick. -/
  | step
  deriving DecidableEq, Repr

/-- Construction, which is the one reset (R240, R243). -/
def Session.construct : Session := ⟨State.reset, false, false⟩

/-- One tick request in a session. -/
def Session.tick (x : Session) : Option Session :=
  match x.core.run with
  | .halted => some x
  | .running =>
    match x.core.afterStep with
    | some t => some { x with core := t, ticked := true }
    | none => none

/-- A move of the host; `none` where the host has no such move (R220, log 10): loading after the first
tick or in HALTED, any use of a core whose load failed, a clock tick while the clock is off. -/
def Session.move (x : Session) (mv : HostMove) : Option Session :=
  if x.loadFailed then none
  else
    match mv with
    | .load program =>
      if x.ticked = true ∨ x.core.run ≠ .running then none
      else
        match x.core.load program with
        | (t, none) => some { x with core := t }
        | (t, some _) => some { x with core := t, loadFailed := true }
    | .start => some { x with core := x.core.clockStart }
    | .stop => some { x with core := x.core.clockStop }
    | .clockTick => if x.core.clockOn then x.tick else none
    | .step => x.tick

end Sys2Proof.Machine
end

