-- ==== Sys2Proof/Safety.lean ====
section
/-! DEFINITION. What counts as a safe run: the invariants the spec's prose states of every point of a
run, and the sessions a host can reach. -/

namespace Sys2Proof.Machine

/-- The 18 opcode bytes of R87, written out from its table for the statements. -/
def opcodesOfR87 : List Byte :=
  [0x01#8, 0x09#8, 0x43#8, 0x48#8, 0x4C#8, 0x4D#8, 0x50#8, 0x51#8, 0x52#8, 0x78#8, 0x79#8, 0x99#8,
    0x9A#8, 0xA0#8, 0xA8#8, 0xA9#8, 0xAA#8, 0xAB#8]

/-- FL holds 0x00, 0x01, 0x02 or 0x04 (R33). -/
def State.FlLegal (s : State) : Prop :=
  s.fl = 0x00#8 ∨ s.fl = 0x01#8 ∨ s.fl = 0x02#8 ∨ s.fl = 0x04#8

/-- The run state, the halt cause, the clock and the fault record agree: RUNNING with no cause and an
empty record; HALTED by HLT with the clock off and an empty record; or HALTED by a fault with the
clock off, a fault code, and `fault_pc` = pc (R36, R37, R38, R206). -/
def State.HaltRecordAgrees (s : State) : Prop :=
  (s.run = .running ∧ s.haltCause = .none ∧ s.fault = FaultRecord.empty) ∨
  (s.run = .halted ∧ s.haltCause = .hlt ∧ s.clockOn = false ∧ s.fault = FaultRecord.empty) ∨
  (s.run = .halted ∧ s.haltCause = .fault ∧ s.clockOn = false ∧ s.fault.code ≠ .none ∧
    s.fault.pc = s.pc)

/-- The invariant of every point of every run. -/
structure State.Inv (s : State) : Prop where
  /-- Memory is in its canonical form. -/
  memWf : s.mem.wf = true
  /-- pc is at most MEM_SIZE (R29). -/
  pcBound : s.pc.toNat ≤ Config.memSize
  /-- R33. -/
  flLegal : s.FlLegal
  /-- R36 to R38. -/
  haltRecord : s.HaltRecordAgrees

/-- A run is safe as long as no tick has faulted. -/
def State.Safe (s : State) : Prop := s.haltCause ≠ .fault

/-- The state R205 and R206 say a tick that raised a fault leaves, written out field by field for the
statements: the state at the start of the tick with the fault state set. -/
def State.faulted (s : State) (code : FaultCode) (info : BitVec 9) : State :=
  { s with
    run := .halted
    haltCause := .fault
    clockOn := false
    fault := { code := code, pc := s.pc, info := info } }

/-- The sessions that construction and any moves of the host lead to (R220, R244). -/
inductive Session.Reachable : Session → Prop where
  | construct : Session.Reachable Session.construct
  | move {x y : Session} (mv : HostMove) :
      Session.Reachable x → x.move mv = some y → Session.Reachable y

end Sys2Proof.Machine
end

