-- ==== Sys2Proof/Certificates/Slice0/Obligations.lean ====
section
/-! DEFINITION. The statements for the provers, in the order of OBLIGATIONS.json. `s.reg r` is x[r],
`s.mem.read q` is M[q], register 7 is SP. A register operand is the raw selector byte: `a.toNat = i.val`
says that the byte selects register `i`, `8 ≤ a.toNat` that it selects none. `s.faulted code info`
is the state of R205: `s` at the start of the tick with only the fault state set.

Where a clause rests on a decision that the spec marks as its own (92_eei_decisions.md), the decision
is: D5 for wrapping modulo 256, D8 for the fault of a selector of 8 or more, D9 for the fault codes,
D10 for discarding a faulting tick's writes, D12 for R7 named by PUSH, POP or CALL. -/

open Sys2Proof Sys2Proof.Machine

/-! ### The instructions: encoding, effect with everything it leaves alone, and faults -/

/-- R121, ADD: bytes `A8 rA rB`; x[a] becomes the sum modulo 256, pc p + 3, nothing else changes;
OutOfBounds(REG) on opA, else on opB. -/
def Obligations.AddWritesSumModulo256 : Prop :=
  ∀ (s : State) (a b : Byte),
    (∀ rest, decode (0xA8#8 :: a :: b :: rest) = .ok (.add a b, rest)) ∧
    (∀ i j : RegName, a.toNat = i.val → b.toNat = j.val →
      exec (.add a b) s = .next { s with
        regs := s.regs.set i.val (BitVec.ofNat 8 (((s.reg i).toNat + (s.reg j).toNat) % 256))
        pc := s.pc + 3#9 }) ∧
    (8 ≤ a.toNat → exec (.add a b) s = .next (s.faulted .outOfBoundsReg (a.setWidth 9))) ∧
    (a.toNat < 8 → 8 ≤ b.toNat →
      exec (.add a b) s = .next (s.faulted .outOfBoundsReg (b.setWidth 9)))

/-- R122, SUB: bytes `A9 rA rB`; x[a] becomes (x[a] + 256 - x[b]) mod 256, pc p + 3, nothing else
changes; OutOfBounds(REG) on opA, else on opB. -/
def Obligations.SubWritesDifferenceModulo256 : Prop :=
  ∀ (s : State) (a b : Byte),
    (∀ rest, decode (0xA9#8 :: a :: b :: rest) = .ok (.sub a b, rest)) ∧
    (∀ i j : RegName, a.toNat = i.val → b.toNat = j.val →
      exec (.sub a b) s = .next { s with
        regs := s.regs.set i.val (BitVec.ofNat 8 (((s.reg i).toNat + 256 - (s.reg j).toNat) % 256))
        pc := s.pc + 3#9 }) ∧
    (8 ≤ a.toNat → exec (.sub a b) s = .next (s.faulted .outOfBoundsReg (a.setWidth 9))) ∧
    (a.toNat < 8 → 8 ≤ b.toNat →
      exec (.sub a b) s = .next (s.faulted .outOfBoundsReg (b.setWidth 9)))

/-- R123, MUL: bytes `AA rA rB`; x[a] becomes the low byte of the product, pc p + 3, nothing else
changes; OutOfBounds(REG) on opA, else on opB. -/
def Obligations.MulWritesLowByteOfProduct : Prop :=
  ∀ (s : State) (a b : Byte),
    (∀ rest, decode (0xAA#8 :: a :: b :: rest) = .ok (.mul a b, rest)) ∧
    (∀ i j : RegName, a.toNat = i.val → b.toNat = j.val →
      exec (.mul a b) s = .next { s with
        regs := s.regs.set i.val (BitVec.ofNat 8 (((s.reg i).toNat * (s.reg j).toNat) % 256))
        pc := s.pc + 3#9 }) ∧
    (8 ≤ a.toNat → exec (.mul a b) s = .next (s.faulted .outOfBoundsReg (a.setWidth 9))) ∧
    (a.toNat < 8 → 8 ≤ b.toNat →
      exec (.mul a b) s = .next (s.faulted .outOfBoundsReg (b.setWidth 9)))

/-- DIV: bytes `AB rA rB`; the unsigned floor quotient, pc p + 3, nothing else changes; a zero divisor
raises DivideByZero(b) with nothing written; OutOfBounds(REG) comes first. That the quotient is the
floor is the spec's own decision D6 (40_alu.md section 2). -/
def Obligations.DivWritesFloorQuotientOrRaises : Prop :=
  ∀ (s : State) (a b : Byte),
    (∀ rest, decode (0xAB#8 :: a :: b :: rest) = .ok (.div a b, rest)) ∧
    (∀ i j : RegName, a.toNat = i.val → b.toNat = j.val →
      ((s.reg j).toNat ≠ 0 → ∃ t : State, exec (.div a b) s = .next t ∧
        (t.reg i).toNat * (s.reg j).toNat ≤ (s.reg i).toNat ∧
        (s.reg i).toNat < ((t.reg i).toNat + 1) * (s.reg j).toNat ∧
        t = { s with regs := s.regs.set i.val (t.reg i), pc := s.pc + 3#9 }) ∧
      ((s.reg j).toNat = 0 →
        exec (.div a b) s = .next (s.faulted .divideByZero (BitVec.ofNat 9 j.val)))) ∧
    (8 ≤ a.toNat → exec (.div a b) s = .next (s.faulted .outOfBoundsReg (a.setWidth 9))) ∧
    (a.toNat < 8 → 8 ≤ b.toNat →
      exec (.div a b) s = .next (s.faulted .outOfBoundsReg (b.setWidth 9)))

/-- R125, INC: bytes `78 rA`; x[a] becomes (x[a] + 1) mod 256, pc p + 2, nothing else changes;
OutOfBounds(REG) on opA. -/
def Obligations.IncWritesSuccessorModulo256 : Prop :=
  ∀ (s : State) (a : Byte),
    (∀ rest, decode (0x78#8 :: a :: rest) = .ok (.inc a, rest)) ∧
    (∀ i : RegName, a.toNat = i.val →
      exec (.inc a) s = .next { s with
        regs := s.regs.set i.val (BitVec.ofNat 8 (((s.reg i).toNat + 1) % 256))
        pc := s.pc + 2#9 }) ∧
    (8 ≤ a.toNat → exec (.inc a) s = .next (s.faulted .outOfBoundsReg (a.setWidth 9)))

/-- R126, DEC: bytes `79 rA`; x[a] becomes (x[a] + 255) mod 256, pc p + 2, nothing else changes;
OutOfBounds(REG) on opA. -/
def Obligations.DecWritesPredecessorModulo256 : Prop :=
  ∀ (s : State) (a : Byte),
    (∀ rest, decode (0x79#8 :: a :: rest) = .ok (.dec a, rest)) ∧
    (∀ i : RegName, a.toNat = i.val →
      exec (.dec a) s = .next { s with
        regs := s.regs.set i.val (BitVec.ofNat 8 (((s.reg i).toNat + 255) % 256))
        pc := s.pc + 2#9 }) ∧
    (8 ≤ a.toNat → exec (.dec a) s = .next (s.faulted .outOfBoundsReg (a.setWidth 9)))

/-- R127, CMP: bytes `A0 rA rB`; FL becomes 0x01 on equality, 0x04 on less, 0x02 on greater (unsigned),
pc p + 3, nothing else changes; OutOfBounds(REG) on opA, else on opB. -/
def Obligations.CmpWritesUnsignedComparison : Prop :=
  ∀ (s : State) (a b : Byte),
    (∀ rest, decode (0xA0#8 :: a :: b :: rest) = .ok (.cmp a b, rest)) ∧
    (∀ i j : RegName, a.toNat = i.val → b.toNat = j.val →
      ((s.reg i).toNat = (s.reg j).toNat →
        exec (.cmp a b) s = .next { s with fl := 0x01#8, pc := s.pc + 3#9 }) ∧
      ((s.reg i).toNat < (s.reg j).toNat →
        exec (.cmp a b) s = .next { s with fl := 0x04#8, pc := s.pc + 3#9 }) ∧
      ((s.reg j).toNat < (s.reg i).toNat →
        exec (.cmp a b) s = .next { s with fl := 0x02#8, pc := s.pc + 3#9 })) ∧
    (8 ≤ a.toNat → exec (.cmp a b) s = .next (s.faulted .outOfBoundsReg (a.setWidth 9))) ∧
    (a.toNat < 8 → 8 ≤ b.toNat →
      exec (.cmp a b) s = .next (s.faulted .outOfBoundsReg (b.setWidth 9)))

/-- R140, LDI: bytes `99 rA imm8`; x[a] becomes the immediate byte, whatever it is, pc p + 3, nothing
else changes; OutOfBounds(REG) on opA only. -/
def Obligations.LdiWritesImmediate : Prop :=
  ∀ (s : State) (a v : Byte),
    (∀ rest, decode (0x99#8 :: a :: v :: rest) = .ok (.ldi a v, rest)) ∧
    (∀ i : RegName, a.toNat = i.val →
      exec (.ldi a v) s = .next { s with regs := s.regs.set i.val v, pc := s.pc + 3#9 }) ∧
    (8 ≤ a.toNat → exec (.ldi a v) s = .next (s.faulted .outOfBoundsReg (a.setWidth 9)))

/-- R141, ST: bytes `9A rA rB`; M[x[a]] becomes x[b] and every other byte stays, pc p + 3, nothing else
changes (so no memory fault can occur at 256 bytes); OutOfBounds(REG) on opA, else on opB. -/
def Obligations.StStoresAtRegisterAddress : Prop :=
  ∀ (s : State) (a b : Byte),
    (∀ rest, decode (0x9A#8 :: a :: b :: rest) = .ok (.st a b, rest)) ∧
    (∀ i j : RegName, a.toNat = i.val → b.toNat = j.val →
      ∃ t : State, exec (.st a b) s = .next t ∧
        (∀ q, t.mem.read q = if q = (s.reg i).toNat then s.reg j else s.mem.read q) ∧
        { t with mem := s.mem } = { s with pc := s.pc + 3#9 }) ∧
    (8 ≤ a.toNat → exec (.st a b) s = .next (s.faulted .outOfBoundsReg (a.setWidth 9))) ∧
    (a.toNat < 8 → 8 ≤ b.toNat →
      exec (.st a b) s = .next (s.faulted .outOfBoundsReg (b.setWidth 9)))

/-- R151, PUSH: bytes `4D rA`; SP becomes (SP - 1) mod 256, M at the new SP becomes x[a] as read after
the decrement (so PUSH R7 stores the new SP), every other byte stays, pc p + 2, nothing else
changes; OutOfBounds(REG) on opA, with SP unchanged. -/
def Obligations.PushDecrementsThenStores : Prop :=
  ∀ (s : State) (a sp : Byte), sp.toNat = ((s.reg 7).toNat + 255) % 256 →
    (∀ rest, decode (0x4D#8 :: a :: rest) = .ok (.push a, rest)) ∧
    (∀ i : RegName, a.toNat = i.val →
      ∃ t : State, exec (.push a) s = .next t ∧
        (∀ q, t.mem.read q =
          if q = sp.toNat then (if i = 7 then sp else s.reg i) else s.mem.read q) ∧
        { t with mem := s.mem } = { s with regs := s.regs.set 7 sp, pc := s.pc + 2#9 }) ∧
    (8 ≤ a.toNat → exec (.push a) s = .next (s.faulted .outOfBoundsReg (a.setWidth 9)))

/-- R152, POP: bytes `4C rA`; x[a] becomes M[SP], then SP is incremented modulo 256 (so POP R7 ends with
SP = M[old SP] + 1), pc p + 2, nothing else changes, memory included; OutOfBounds(REG) on opA. -/
def Obligations.PopLoadsThenIncrements : Prop :=
  ∀ (s : State) (a v : Byte), v = s.mem.read (s.reg 7).toNat →
    (∀ rest, decode (0x4C#8 :: a :: rest) = .ok (.pop a, rest)) ∧
    (∀ i : RegName, a.toNat = i.val → i ≠ 7 →
      exec (.pop a) s = .next { s with
        regs := (s.regs.set i.val v).set 7 (BitVec.ofNat 8 (((s.reg 7).toNat + 1) % 256))
        pc := s.pc + 2#9 }) ∧
    (a.toNat = 7 →
      exec (.pop a) s = .next { s with
        regs := s.regs.set 7 (BitVec.ofNat 8 ((v.toNat + 1) % 256))
        pc := s.pc + 2#9 }) ∧
    (8 ≤ a.toNat → exec (.pop a) s = .next (s.faulted .outOfBoundsReg (a.setWidth 9)))

/-- R161, JMP: bytes `50 rA`; pc becomes x[a], FL is not read, nothing else changes; OutOfBounds(REG) on
opA. -/
def Obligations.JmpSetsPcToRegister : Prop :=
  ∀ (s : State) (a : Byte),
    (∀ rest, decode (0x50#8 :: a :: rest) = .ok (.jmp a, rest)) ∧
    (∀ i : RegName, a.toNat = i.val →
      exec (.jmp a) s = .next { s with pc := BitVec.ofNat 9 (s.reg i).toNat }) ∧
    (8 ≤ a.toNat → exec (.jmp a) s = .next (s.faulted .outOfBoundsReg (a.setWidth 9)))

/-- R162, JEQ: bytes `51 rA`; pc becomes x[a] if FL is 0x01 and p + 2 otherwise, nothing else changes;
OutOfBounds(REG) on opA whether or not the branch would be taken. -/
def Obligations.JeqJumpsOnEqual : Prop :=
  ∀ (s : State) (a : Byte),
    (∀ rest, decode (0x51#8 :: a :: rest) = .ok (.jeq a, rest)) ∧
    (∀ i : RegName, a.toNat = i.val →
      (s.fl = 0x01#8 → exec (.jeq a) s = .next { s with pc := BitVec.ofNat 9 (s.reg i).toNat }) ∧
      (s.fl ≠ 0x01#8 → exec (.jeq a) s = .next { s with pc := s.pc + 2#9 })) ∧
    (8 ≤ a.toNat → exec (.jeq a) s = .next (s.faulted .outOfBoundsReg (a.setWidth 9)))

/-- R163, JNE: bytes `52 rA`; pc becomes x[a] if FL is not 0x01 and p + 2 otherwise, nothing else
changes; OutOfBounds(REG) on opA whether or not the branch would be taken. -/
def Obligations.JneJumpsOnNotEqual : Prop :=
  ∀ (s : State) (a : Byte),
    (∀ rest, decode (0x52#8 :: a :: rest) = .ok (.jne a, rest)) ∧
    (∀ i : RegName, a.toNat = i.val →
      (s.fl ≠ 0x01#8 → exec (.jne a) s = .next { s with pc := BitVec.ofNat 9 (s.reg i).toNat }) ∧
      (s.fl = 0x01#8 → exec (.jne a) s = .next { s with pc := s.pc + 2#9 })) ∧
    (8 ≤ a.toNat → exec (.jne a) s = .next (s.faulted .outOfBoundsReg (a.setWidth 9)))

/-- CALL: bytes `48 rA`; SP becomes (SP - 1) mod 256, M at the new SP becomes the byte p + 2, every
other byte stays, pc becomes x[a] as read after the decrement, nothing else changes;
OutOfBounds(REG) on opA. That CALL R7 reads the decremented SP is the spec's own decision D12
(43_control.md). -/
def Obligations.CallPushesReturnAddress : Prop :=
  ∀ (s : State) (a sp : Byte), sp.toNat = ((s.reg 7).toNat + 255) % 256 →
    (∀ rest, decode (0x48#8 :: a :: rest) = .ok (.call a, rest)) ∧
    (∀ i : RegName, a.toNat = i.val →
      ∃ t : State, exec (.call a) s = .next t ∧
        (∀ q, t.mem.read q =
          if q = sp.toNat then BitVec.ofNat 8 (s.pc.toNat + 2) else s.mem.read q) ∧
        { t with mem := s.mem } = { s with
          regs := s.regs.set 7 sp
          pc := BitVec.ofNat 9 (if i = 7 then sp else s.reg i).toNat } ∧
        (s.pc.toNat ≤ 253 → (t.mem.read sp.toNat).toNat = s.pc.toNat + 2)) ∧
    (8 ≤ a.toNat → exec (.call a) s = .next (s.faulted .outOfBoundsReg (a.setWidth 9)))

/-- R165, RET: byte `09`; pc becomes M[SP] as read before the increment, SP is incremented modulo 256,
nothing else changes, memory included; it never raises. -/
def Obligations.RetPopsPc : Prop :=
  ∀ s : State,
    (∀ rest, decode (0x09#8 :: rest) = .ok (.ret, rest)) ∧
    exec .ret s = .next { s with
      regs := s.regs.set 7 (BitVec.ofNat 8 (((s.reg 7).toNat + 1) % 256))
      pc := BitVec.ofNat 9 (s.mem.read (s.reg 7).toNat).toNat }

/-- R180, HLT: byte `01`; HALTED with cause HLT and the clock off, pc p + 1, nothing else changes; and
then no tick takes place. -/
def Obligations.HltHaltsCore : Prop :=
  ∀ s : State,
    (∀ rest, decode (0x01#8 :: rest) = .ok (.hlt, rest)) ∧
    ∃ t : State, exec .hlt s = .next t ∧
      t = { s with run := .halted, haltCause := .hlt, clockOn := false, pc := s.pc + 1#9 } ∧
      step t = .next t

/-- R181, PRN: bytes `43 rA`; the byte x[a] is appended to out, which is the tick's one output event,
pc p + 2, nothing else changes; OutOfBounds(REG) on opA, with nothing emitted. -/
def Obligations.PrnAppendsRegisterByte : Prop :=
  ∀ (s : State) (a : Byte),
    (∀ rest, decode (0x43#8 :: a :: rest) = .ok (.prn a, rest)) ∧
    (∀ i : RegName, a.toNat = i.val →
      exec (.prn a) s = .next { s with out := s.out ++ [s.reg i], pc := s.pc + 2#9 } ∧
      ∀ t : State, exec (.prn a) s = .next t → outputEvents s t = [s.reg i]) ∧
    (8 ≤ a.toNat → exec (.prn a) s = .next (s.faulted .outOfBoundsReg (a.setWidth 9)))

/-! ### Frames, read through the model's byte and register reads -/

/-- ADD, SUB, MUL, DIV, INC, DEC, LDI (R25, R34, R55): every register but the named destination, FL,
every byte of memory and the output stay, and so does the run state unless the tick faulted. -/
def Obligations.RegisterWritingFormsFrame : Prop :=
  ∀ (s t : State) (a b : Byte) (i : Instr),
    (i = .add a b ∨ i = .sub a b ∨ i = .mul a b ∨ i = .div a b ∨ i = .inc a ∨ i = .dec a ∨
      i = .ldi a b) →
    exec i s = .next t →
    (∀ r : RegName, r.val ≠ a.toNat → t.reg r = s.reg r) ∧
    t.fl = s.fl ∧ t.out = s.out ∧ (∀ q, t.mem.read q = s.mem.read q) ∧
    ((t.run = s.run ∧ t.haltCause = s.haltCause ∧ t.clockOn = s.clockOn ∧ t.fault = s.fault) ∨
      ∃ code info, code ≠ .none ∧ t = s.faulted code info)

/-- CMP, PRN, JMP, JEQ, JNE, HLT (R25, R34, R39, R55): no register and no byte of memory changes; FL
stays but for CMP and the output but for PRN; the run state stays but for HLT and a fault. -/
def Obligations.RegisterKeepingFormsFrame : Prop :=
  ∀ (s t : State) (a b : Byte) (i : Instr),
    (i = .cmp a b ∨ i = .prn a ∨ i = .jmp a ∨ i = .jeq a ∨ i = .jne a ∨ i = .hlt) →
    exec i s = .next t →
    (∀ r : RegName, t.reg r = s.reg r) ∧ (∀ q, t.mem.read q = s.mem.read q) ∧
    (t.fl ≠ s.fl → i = .cmp a b) ∧ (t.out ≠ s.out → i = .prn a) ∧
    ((t.run = s.run ∧ t.haltCause = s.haltCause ∧ t.clockOn = s.clockOn ∧ t.fault = s.fault) ∨
      (i = .hlt ∧ t.fault = s.fault) ∨ ∃ code info, code ≠ .none ∧ t = s.faulted code info)

/-- ST, PUSH, CALL (R25, R55): the one byte stored to is at x[rA] for ST and at the decremented SP for
PUSH and CALL; every other byte reads as before. ST changes no register, PUSH and CALL only SP.
FL and the output stay, and so does the run state unless the tick faulted. -/
def Obligations.StoringFormsFrame : Prop :=
  ∀ (s t : State) (a b : Byte),
    (exec (.st a b) s = .next t →
      (∀ (i : RegName) (adr : Nat), a.toNat = i.val → (s.reg i).toNat = adr →
        ∀ q, q ≠ adr → t.mem.read q = s.mem.read q) ∧
      (∀ r : RegName, t.reg r = s.reg r)) ∧
    (exec (.push a) s = .next t ∨ exec (.call a) s = .next t →
      (∀ adr : Nat, s.decSp.sp.toNat = adr → ∀ q, q ≠ adr → t.mem.read q = s.mem.read q) ∧
      (∀ r : RegName, r ≠ 7 → t.reg r = s.reg r)) ∧
    (exec (.st a b) s = .next t ∨ exec (.push a) s = .next t ∨ exec (.call a) s = .next t →
      t.fl = s.fl ∧ t.out = s.out ∧
      ((t.run = s.run ∧ t.haltCause = s.haltCause ∧ t.clockOn = s.clockOn ∧ t.fault = s.fault) ∨
        ∃ code info, code ≠ .none ∧ t = s.faulted code info))

/-- POP, RET (R25, R55): no byte of memory changes; POP changes only the named register and SP, RET only
SP; FL and the output stay, and so does the run state unless the tick faulted. -/
def Obligations.StackReadingFormsFrame : Prop :=
  ∀ (s t : State) (a : Byte),
    (exec (.pop a) s = .next t → ∀ r : RegName, r.val ≠ a.toNat → r ≠ 7 → t.reg r = s.reg r) ∧
    (exec .ret s = .next t → ∀ r : RegName, r ≠ 7 → t.reg r = s.reg r) ∧
    (exec (.pop a) s = .next t ∨ exec .ret s = .next t →
      (∀ q, t.mem.read q = s.mem.read q) ∧ t.fl = s.fl ∧ t.out = s.out ∧
      ((t.run = s.run ∧ t.haltCause = s.haltCause ∧ t.clockOn = s.clockOn ∧ t.fault = s.fault) ∨
        ∃ code info, code ≠ .none ∧ t = s.faulted code info))

/-! ### Decoding -/

/-- R87: each of the 18 opcode bytes, with any operand bytes, decodes to its instruction. -/
def Obligations.OpcodeBytesDecode : Prop :=
  ∀ a b : Byte,
    decodeFetched 0x01#8 a b = .ok .hlt ∧ decodeFetched 0x09#8 a b = .ok .ret ∧
    decodeFetched 0x43#8 a b = .ok (.prn a) ∧ decodeFetched 0x48#8 a b = .ok (.call a) ∧
    decodeFetched 0x4C#8 a b = .ok (.pop a) ∧ decodeFetched 0x4D#8 a b = .ok (.push a) ∧
    decodeFetched 0x50#8 a b = .ok (.jmp a) ∧ decodeFetched 0x51#8 a b = .ok (.jeq a) ∧
    decodeFetched 0x52#8 a b = .ok (.jne a) ∧ decodeFetched 0x78#8 a b = .ok (.inc a) ∧
    decodeFetched 0x79#8 a b = .ok (.dec a) ∧ decodeFetched 0x99#8 a b = .ok (.ldi a b) ∧
    decodeFetched 0x9A#8 a b = .ok (.st a b) ∧ decodeFetched 0xA0#8 a b = .ok (.cmp a b) ∧
    decodeFetched 0xA8#8 a b = .ok (.add a b) ∧ decodeFetched 0xA9#8 a b = .ok (.sub a b) ∧
    decodeFetched 0xAA#8 a b = .ok (.mul a b) ∧ decodeFetched 0xAB#8 a b = .ok (.div a b)

/-- R88: the 238 opcode bytes that are none of the 18 are rejected, whatever the operand bytes, and a
tick that fetches one raises IllegalInstruction(op). -/
def Obligations.IllegalOpcodesRaise : Prop :=
  ((List.range 256).filter fun n => !opcodesOfR87.contains (BitVec.ofNat 8 n)).length = 238 ∧
  (∀ op a b : Byte, op ∉ opcodesOfR87 → decodeFetched op a b = .error (.illegalOpcode op)) ∧
  (∀ s : State, s.run = .running → s.pc.toNat ≤ 253 → s.mem.read s.pc.toNat ∉ opcodesOfR87 →
    step s = .next (s.faulted .illegalInstruction ((s.mem.read s.pc.toNat).setWidth 9)))

/-- R81: the decoder takes exactly `(op >> 6) + 1` bytes off the list. -/
def Obligations.DecodedLengthIsHighBitsPlusOne : Prop :=
  ∀ (op : Byte) (tail rest : List Byte) (i : Instr), decode (op :: tail) = .ok (i, rest) →
    ∃ bytes : List Byte, op :: tail = bytes ++ rest ∧ bytes.length = op.toNat / 64 + 1

/-- Decoding and encoding agree in both directions: a byte list decodes to `i` with `rest` left exactly
when it is the encoding of `i` followed by `rest`, for every instruction with every operand value
(30_encoding.md sections 1 and 3). -/
def Obligations.DecodeIffEncode : Prop :=
  ∀ (bytes rest : List Byte) (i : Instr), decode bytes = .ok (i, rest) ↔ bytes = encode i ++ rest

/-- An operand byte beyond the opcode's operand count is ignored, whatever its value (30_encoding.md
section 2); it is fetched all the same, and that this fetch faults past the last byte, here at pc 254,
is the spec's own decision D7 (30_encoding.md section 4). -/
def Obligations.UnusedOperandBytesAreIgnored : Prop :=
  (∀ op a b c d : Byte, op.toNat / 64 = 0 → decodeFetched op a b = decodeFetched op c d) ∧
  (∀ op a b d : Byte, op.toNat / 64 = 1 → decodeFetched op a b = decodeFetched op a d) ∧
  (∀ s : State, s.run = .running → s.pc.toNat = 254 →
    step s = .next (s.faulted .outOfBoundsMem 256#9))

/-! ### The tick -/

/-- A RUNNING core whose three bytes at pc exist and decode to `i` runs exactly `exec i`; what the
machine adds around an instruction's rule, the default advance and the commit, is inside `exec`
(30_encoding.md section 4, log 19). `clock_on` plays no part (log 2). -/
def Obligations.StepRunsDecodedInstruction : Prop :=
  ∀ (s : State) (i : Instr), s.run = .running → s.pc.toNat ≤ 253 →
    decodeFetched (s.mem.read s.pc.toNat) (s.mem.read (s.pc.toNat + 1))
      (s.mem.read (s.pc.toNat + 2)) = .ok i →
    step s = exec i s

/-- A fetch that runs past the last byte faults with the first missing address, whatever the opcode,
HLT and RET included: address 256 for pc 254, 255 or 256 (the spec's decision D7, 30_encoding.md
section 4). For the pc values above 256, which no run reaches, the address is pc itself (log 3). -/
def Obligations.FetchPastEndFaults : Prop :=
  ∀ s : State, s.run = .running → 253 < s.pc.toNat →
    step s = .next (s.faulted .outOfBoundsMem (BitVec.ofNat 9 (max s.pc.toNat 256)))

/-- A tick takes place only in RUNNING, on the host's single step or, with `clock_on` true, on the clock's
tick, and the two are the same tick; in HALTED a request changes nothing, any number of times
(30_encoding.md section 4). That a clock tick with the clock off is `none`, and that a session whose
load failed has no move, which the premise leaves out, are the model's choices (log 10). -/
def Obligations.TicksTakePlaceOnlyWhenRunning : Prop :=
  (∀ x : Session, x.loadFailed = false →
    (x.core.run = .halted → x.move .step = some x) ∧
    (x.core.run = .running → ∃ y : Session, x.move .step = some y ∧ step x.core = .next y.core ∧
      y.ticked = true) ∧
    x.move .clockTick = if x.core.clockOn then x.move .step else none) ∧
  (∀ s : State, s.run = .halted → ∀ n, s.ticks n = .next s)

/-- Every tick request from every state answers a next state: nothing the core does stops the model
(log 1). -/
def Obligations.StepAlwaysAnswersNext : Prop :=
  ∀ s : State, ∃ t : State, step s = .next t

/-- R28: the new pc of every instruction that does not fault; a tick that faults, or that does not take
place, and every other move of the host leave pc. -/
def Obligations.NewPcOfEveryInstruction : Prop :=
  (∀ s t : State, step s = .next t →
    (s.run = .halted ∨ s.haltCause ≠ .fault ∧ t.haltCause = .fault) → t.pc = s.pc) ∧
  (∀ (x y : Session) (mv : HostMove), x.move mv = some y → mv ≠ .step → mv ≠ .clockTick →
    y.core.pc = x.core.pc) ∧
  (∀ (s t : State) (i : Instr), s.haltCause ≠ .fault → s.pc.toNat ≤ 253 → exec i s = .next t →
    t.haltCause ≠ .fault →
      (i = .hlt → t.pc.toNat = s.pc.toNat + 1) ∧
      (∀ a, (i = .prn a ∨ i = .inc a ∨ i = .dec a ∨ i = .push a ∨ i = .pop a) →
        t.pc.toNat = s.pc.toNat + 2) ∧
      (∀ a b, (i = .ldi a b ∨ i = .add a b ∨ i = .sub a b ∨ i = .mul a b ∨ i = .div a b ∨
          i = .cmp a b ∨ i = .st a b) → t.pc.toNat = s.pc.toNat + 3) ∧
      (∀ (a : Byte) (r : RegName), a.toNat = r.val →
        (i = .jmp a → t.pc.toNat = (s.reg r).toNat) ∧
        (i = .jeq a → t.pc.toNat = if s.fl = 0x01#8 then (s.reg r).toNat else s.pc.toNat + 2) ∧
        (i = .jne a → t.pc.toNat = if s.fl ≠ 0x01#8 then (s.reg r).toNat else s.pc.toNat + 2) ∧
        (i = .call a → t.pc.toNat = (t.reg r).toNat)) ∧
      (i = .ret → t.pc.toNat = (s.mem.read (s.reg 7).toNat).toNat))

/-- R34: FL is written only by CMP: any other instruction leaves it, a tick that changes it ran a CMP,
and no move of the host but a tick touches it. -/
def Obligations.FlagsWrittenOnlyByCmp : Prop :=
  (∀ (s t : State) (i : Instr), exec i s = .next t → t.fl ≠ s.fl → ∃ a b, i = .cmp a b) ∧
  (∀ s t : State, step s = .next t → t.fl ≠ s.fl →
    s.run = .running ∧ ∃ a b, fetchInstr s = .ok (.cmp a b)) ∧
  (∀ (x y : Session) (mv : HostMove), x.move mv = some y → mv ≠ .step → mv ≠ .clockTick →
    y.core.fl = x.core.fl)

/-- Only PRN writes the output log, and it appends one byte, the value of the register it names
(10_state.md section 5, the spec's decision D17): the log never shrinks and gains at most one byte a
tick. -/
def Obligations.OutputGrowsOnlyByPrn : Prop :=
  ∀ s t : State, step s = .next t →
    t.out = s.out ∨
    ∃ (a : Byte) (r : RegName), s.run = .running ∧ fetchInstr s = .ok (.prn a) ∧
      a.toNat = r.val ∧ t.out = s.out ++ [s.reg r] ∧ outputEvents s t = [s.reg r]

/-- A tick changes at most one byte of memory, and only an ST, at x[rA], or a PUSH or CALL, at the
decremented SP, changes one (20_memory.md section 3). -/
def Obligations.MemoryChangesOnlyByStores : Prop :=
  ∀ (s t : State) (q : Nat), step s = .next t → t.mem.read q ≠ s.mem.read q →
    s.run = .running ∧
    ((∃ (a b : Byte) (r : RegName), fetchInstr s = .ok (.st a b) ∧ a.toNat = r.val ∧
        q = (s.reg r).toNat) ∨
      (∃ a : Byte, (fetchInstr s = .ok (.push a) ∨ fetchInstr s = .ok (.call a)) ∧
        q = ((s.reg 7).toNat + 255) % 256))

/-- RUNNING with no cause at reset; a tick that enters HALTED either ran HLT, with cause HLT, or raised a
fault, with cause FAULT and a fault code (10_state.md section 5; 90_conflicts.md C1); no tick and no
move of the host leaves HALTED (the spec's decision D23). That HLT and a raise do enter HALTED is in
HltHaltsCore and FaultPriorityIsComplete. -/
def Obligations.HaltedEnteredOnlyByHltOrFault : Prop :=
  State.reset.run = .running ∧ State.reset.haltCause = .none ∧
  (∀ s t : State, s.run = .running → step s = .next t → t.run = .halted →
    (fetchInstr s = .ok .hlt ∧ t.haltCause = .hlt) ∨
    (t.haltCause = .fault ∧ t.fault.code ≠ .none)) ∧
  (∀ s t : State, s.run = .running → step s = .next t → t.run = .running →
    t.haltCause = s.haltCause) ∧
  (∀ (x y : Session) (mv : HostMove), x.core.run = .halted → x.move mv = some y →
    y.core.run = .halted ∧ y.core.haltCause = x.core.haltCause)

/-- R205: a tick that faults leaves the state it started from, with the fault record, HALTED, cause FAULT
and the clock off, and nothing else changed: no register, flag, memory byte, output element or pc
change survives. -/
def Obligations.FaultingTickChangesOnlyFaultState : Prop :=
  (∀ (s : State) (f : Fault), s.takeFault f = s.faulted f.code f.info) ∧
  (∀ s t : State, s.haltCause ≠ .fault → step s = .next t → t.haltCause = .fault →
    ∃ f : Fault, t = s.faulted f.code f.info ∧ f.code ≠ .none)

/-- The cause codes and fault_info of the four faults (60_exceptions.md section 1, the spec's decision
D9), for an address of 9 bits. -/
def Obligations.FaultCodesAndInfo : Prop :=
  FaultCode.none.number = 0 ∧
  (∀ addr, addr < 512 → (Fault.outOfBoundsMem addr).code.number = 1 ∧
    (Fault.outOfBoundsMem addr).info.toNat = addr) ∧
  (∀ sel, (Fault.outOfBoundsReg sel).code.number = 2 ∧
    (Fault.outOfBoundsReg sel).info.toNat = sel.toNat) ∧
  (∀ op, (Fault.illegalInstruction op).code.number = 3 ∧
    (Fault.illegalInstruction op).info.toNat = op.toNat) ∧
  (∀ r, (Fault.divideByZero r).code.number = 4 ∧ (Fault.divideByZero r).info.toNat = r.val)

/-- The first fault in the order of 60_exceptions.md section 2 (the spec's decision D11) is the one a
tick reports, and a tick that meets none of them does not fault: in particular no data access
faults at 256 bytes. -/
def Obligations.FaultPriorityIsComplete : Prop :=
  ∀ s : State, s.run = .running → s.haltCause ≠ .fault →
    (253 < s.pc.toNat → ∃ info, step s = .next (s.faulted .outOfBoundsMem info)) ∧
    (s.pc.toNat ≤ 253 →
      (∀ f, fetchInstr s = .error f →
        step s = .next (s.faulted .illegalInstruction ((s.mem.read s.pc.toNat).setWidth 9))) ∧
      (∀ i, fetchInstr s = .ok i →
        (∀ sel, i.selectors.find? (fun b => decide (8 ≤ b.toNat)) = some sel →
          step s = .next (s.faulted .outOfBoundsReg (sel.setWidth 9))) ∧
        (i.wellFormed = true →
          (∀ (a b : Byte) (r : RegName), i = .div a b → b.toNat = r.val → s.reg r = 0#8 →
            step s = .next (s.faulted .divideByZero (BitVec.ofNat 9 r.val))) ∧
          ((∀ (a b : Byte) (r : RegName), i = .div a b → b.toNat = r.val → s.reg r ≠ 0#8) →
            ∃ t : State, step s = .next t ∧ t.haltCause ≠ .fault ∧ t.fault = s.fault))))

/-- At 256 bytes only a fetch raises OutOfBounds(MEM), and the address it reports is always 256
(20_memory.md section 3, 60_exceptions.md section 1). -/
def Obligations.MemoryFaultOnlyAtEndOfMemory : Prop :=
  ∀ s t : State, s.Inv → s.run = .running → step s = .next t → t.fault.code = .outOfBoundsMem →
    254 ≤ s.pc.toNat ∧ t.fault.info = 256#9

/-- The fault record is written once: a tick that changes it started RUNNING, entered HALTED with cause
FAULT and recorded a code and its own pc; no move of the host but a tick changes it (10_state.md
section 5, the spec's decision D24). -/
def Obligations.FaultRecordWrittenOnce : Prop :=
  (∀ s t : State, step s = .next t → t.fault ≠ s.fault →
    s.run = .running ∧ t.run = .halted ∧ t.haltCause = .fault ∧ t.fault.code ≠ .none ∧
    t.fault.pc = s.pc) ∧
  (∀ (x y : Session) (mv : HostMove), x.move mv = some y → mv ≠ .step → mv ≠ .clockTick →
    y.core.fault = x.core.fault)

/-- A table word that decodes to `i`, placed where the next tick fetches, is run by that tick: `exec i`
from the state with the word placed (the model's stand-in for the load port, log 13). -/
def Obligations.PlacedTableWordRunsNext : Prop :=
  ∀ (s : State) (nbits w : Nat) (i : Instr), s.run = .running → s.pc.toNat ≤ 253 →
    decodeTableWord nbits w = some i →
    step (s.withFetchWord nbits w) = exec i (s.withFetchWord nbits w) ∧
    ∀ q, q < s.pc.toNat ∨ s.pc.toNat + 3 ≤ q →
      (s.withFetchWord nbits w).mem.read q = s.mem.read q

/-! ### Reset and invariants -/

/-- What reset leaves: SP 244, memory zero, RUNNING, no cause, clock off, empty fault record, empty
output (70_reset_and_hazards.md section 1); x[0..6] = 0, pc = 0 and FL = 0 are the spec's own
decisions D3, D2 and D4. -/
def Obligations.ResetLeavesSpecValues : Prop :=
  (State.reset.reg 7).toNat = 244 ∧ (∀ r : RegName, r ≠ 7 → State.reset.reg r = 0#8) ∧
  State.reset.pc.toNat = 0 ∧ State.reset.fl = 0x00#8 ∧ (∀ q, State.reset.mem.read q = 0#8) ∧
  State.reset.run = .running ∧ State.reset.haltCause = .none ∧ State.reset.clockOn = false ∧
  State.reset.fault.code.number = 0 ∧ State.reset.fault.pc = 0#9 ∧ State.reset.fault.info = 0#9 ∧
  State.reset.out = []

/-- The invariant holds at reset. -/
def Obligations.ResetMeetsInvariant : Prop := State.reset.Inv

/-- Every step keeps the invariant, from every state that has it: the memory's canonical form, pc at most
256, FL one of 0x00, 0x01, 0x02, 0x04, and the agreement of run state, halt cause, clock and fault
record (10_state.md sections 3 to 5). -/
def Obligations.StepKeepsInvariant : Prop :=
  ∀ s t : State, s.Inv → step s = .next t → t.Inv

/-- Every session the host can reach, by construction and any moves it has, meets the invariant, with any
program loaded (60_exceptions.md section 6). That a failed load still leaves a session, and that no
tick follows it, so that a session whose load failed has not ticked, are the model's readings
(logs 9 and 10). -/
def Obligations.ReachableSessionsMeetInvariant : Prop :=
  ∀ x : Session, x.Reachable → x.core.Inv ∧ (x.loadFailed = true → x.ticked = false)

/-! ### Round trips and laws over two instructions -/

/-- PUSH then POP of the same register restores it and SP, for every register, R7 included, and leaves
every other register (the source's property, 42_stack.md). -/
def Obligations.PushThenPopRestores : Prop :=
  ∀ (s : State) (a : Byte), a.toNat < 8 →
    ∃ t u : State, exec (.push a) s = .next t ∧ exec (.pop a) t = .next u ∧ u.regs = s.regs

/-- CALL then RET returns to the instruction after the CALL with SP and every other register unchanged
(the source's property, 43_control.md; conflict C4). -/
def Obligations.CallThenRetReturns : Prop :=
  ∀ (s : State) (a : Byte), a.toNat < 8 → s.pc.toNat ≤ 253 →
    ∃ t u : State, exec (.call a) s = .next t ∧ exec .ret t = .next u ∧
      u.pc.toNat = s.pc.toNat + 2 ∧ u.regs = s.regs

/-- INC then DEC, DEC then INC, and ADD then SUB of another register restore the destination for every
value (40_alu.md section 5, the spec's decision D5). -/
def Obligations.ArithmeticRoundTripsRestore : Prop :=
  ∀ (s : State) (a b : Byte), a.toNat < 8 → b.toNat < 8 →
    (∃ t u : State, exec (.inc a) s = .next t ∧ exec (.dec a) t = .next u ∧ u.regs = s.regs) ∧
    (∃ t u : State, exec (.dec a) s = .next t ∧ exec (.inc a) t = .next u ∧ u.regs = s.regs) ∧
    (a ≠ b →
      ∃ t u : State, exec (.add a b) s = .next t ∧ exec (.sub a b) t = .next u ∧ u.regs = s.regs)

/-- A store into code is seen by every later fetch of that byte, and not by the tick that made it: the
ST runs with the operand bytes it fetched, even where it overwrites them (20_memory.md section 6). -/
def Obligations.StoreIsSeenByLaterFetches : Prop :=
  ∀ (s t : State) (a b : Byte) (i j : RegName), s.run = .running → s.pc.toNat ≤ 253 →
    s.mem.read s.pc.toNat = 0x9A#8 → s.mem.read (s.pc.toNat + 1) = a →
    s.mem.read (s.pc.toNat + 2) = b → a.toNat = i.val → b.toNat = j.val → step s = .next t →
    t.mem.read (s.reg i).toNat = s.reg j ∧ t.pc.toNat = s.pc.toNat + 3 ∧
    (∀ u : State, u.mem = t.mem → u.pc.toNat ≤ 253 → ∃ w : Fetched, fetch u = .ok w ∧
      (u.pc.toNat = (s.reg i).toNat → w.op = s.reg j) ∧
      (u.pc.toNat + 1 = (s.reg i).toNat → w.opA = s.reg j) ∧
      (u.pc.toNat + 2 = (s.reg i).toNat → w.opB = s.reg j))

/-- Two memories in canonical form that read the same at every address are the same data (the model's own
representation of R50's array, log 7). -/
def Obligations.CanonicalMemoriesAgreeWhenReadsAgree : Prop :=
  ∀ m n : Memory, m.wf = true → n.wf = true → (∀ q, m.read q = n.read q) → m = n

/-! ### The host's side -/

/-- The clock is off at reset, set by start and cleared by stop while RUNNING, cleared on entering HALTED; a
tick computes the same whether it is on or off, and no instruction touches it otherwise (10_state.md
section 5, 60_exceptions.md section 4). That a clock tick with the clock off is `none` is the model's
choice (log 10). -/
def Obligations.ClockDoesNotAffectTicks : Prop :=
  State.reset.clockOn = false ∧
  (∀ s : State, s.run = .running → s.clockStart.clockOn = true ∧ s.clockStop.clockOn = false) ∧
  (∀ (s t : State) (c : Bool), s.run = .running → step s = .next t →
    step { s with clockOn := c } =
      .next { t with clockOn := if t.run = .halted then false else c }) ∧
  (∀ x : Session, x.core.clockOn = false → x.move .clockTick = none)

/-- Start and stop change nothing but `clock_on`, do nothing in HALTED, and are idempotent
(60_exceptions.md section 4, the spec's decision D15). -/
def Obligations.ClockStartStopAreIdempotent : Prop :=
  ∀ s : State,
    (s.run = .running → s.clockStart = { s with clockOn := true } ∧
      s.clockStop = { s with clockOn := false }) ∧
    (s.run = .halted → s.clockStart = s ∧ s.clockStop = s) ∧
    s.clockStart.clockStart = s.clockStart ∧ s.clockStop.clockStop = s.clockStop

/-- The load port: a program of at most 256 bytes goes to addresses 0, 1, 2, ... and nothing else
changes; a longer one fails with OutOfBounds at address 256, and the session then has no further
move (20_memory.md section 7, the spec's decision D23; logs 9 and 10). -/
def Obligations.LoadPlacesProgramFromZero : Prop :=
  (∀ (s : State) (program : List Byte), program.length ≤ 256 →
    ∃ t : State, s.load program = (t, none) ∧
      (∀ q, t.mem.read q = if h : q < program.length then program[q] else s.mem.read q) ∧
      { t with mem := s.mem } = s) ∧
  (∀ (s : State) (program : List Byte), 256 < program.length →
    (s.load program).2 = some (.outOfBoundsMem 256)) ∧
  (∀ (x y : Session) (program : List Byte), 256 < program.length →
    x.move (.load program) = some y → ∀ mv, y.move mv = none)

/-- A move of the host that is no tick writes no register, no pc, no FL, no output and no run state, and
memory only before the first tick; it does not count as a tick (60_exceptions.md section 6, the spec's
decision D23). Of `clock_on`, which start and stop write, and of the fault record this says nothing. -/
def Obligations.HostMovesKeepCoreAndMemoryAfterFirstTick : Prop :=
  ∀ (x y : Session) (mv : HostMove), x.move mv = some y → mv ≠ .step → mv ≠ .clockTick →
    y.core.regs = x.core.regs ∧ y.core.pc = x.core.pc ∧ y.core.fl = x.core.fl ∧
    y.core.out = x.core.out ∧ y.core.run = x.core.run ∧ y.core.haltCause = x.core.haltCause ∧
    (x.ticked = true → y.core.mem = x.core.mem) ∧ y.ticked = x.ticked

/-- `run_until_halt()` with fuel: the state it gives is HALTED and is the one that as many tick requests
give; it gives none exactly when the core is still RUNNING after them (60_exceptions.md section 4,
70_reset_and_hazards.md section 3; log 21). -/
def Obligations.RunUntilHaltIsRepeatedTicks : Prop :=
  ∀ (s : State) (fuel : Nat),
    (∀ t : State, s.runUntilHalt fuel = some t → t.run = .halted ∧ s.ticks fuel = .next t) ∧
    (s.runUntilHalt fuel = none → ∃ t : State, s.ticks fuel = .next t ∧ t.run = .running)

/-- A line of assembler text only ever stands for an instruction whose selectors name registers: there is
no spelling of a selector of 8 or more (30_encoding.md section 5, the spec's decision D22). -/
def Obligations.AssembledLinesAreWellFormed : Prop :=
  ∀ (line : List Char) (i : Instr), assembleLine line = some i → i.wellFormed = true
end

