-- ==== Sys2Proof/Laws/Advance.lean ====
section
/-! SUPPORT. Step 4 of the tick for each instruction: the default advance by 1, 2 or 3, and none for the
five instructions of PCSET (spec/30_encoding.md R93, R97). -/

namespace Sys2Proof.Machine

variable (t : State) (p : PcWord)

/-- The advance of an instruction outside PCSET, from the length its opcode announces. -/
theorem State.advance_of_length {i : Instr} {n : Nat} (hs : i.setsPc = false)
    (hn : instrLength i.opcode = n) : t.advance i p = t.setPc (p + BitVec.ofNat 9 n) := by
  simp [State.advance, hs, hn]

@[simp] theorem State.advance_hlt : t.advance .hlt p = t.setPc (p + 1#9) :=
  t.advance_of_length p rfl (show instrLength 0x01#8 = 1 by decide)
@[simp] theorem State.advance_ret : t.advance .ret p = t := rfl
@[simp] theorem State.advance_prn (rA : Byte) : t.advance (.prn rA) p = t.setPc (p + 2#9) :=
  t.advance_of_length p rfl (show instrLength 0x43#8 = 2 by decide)
@[simp] theorem State.advance_call (rA : Byte) : t.advance (.call rA) p = t := rfl
@[simp] theorem State.advance_pop (rA : Byte) : t.advance (.pop rA) p = t.setPc (p + 2#9) :=
  t.advance_of_length p rfl (show instrLength 0x4C#8 = 2 by decide)
@[simp] theorem State.advance_push (rA : Byte) : t.advance (.push rA) p = t.setPc (p + 2#9) :=
  t.advance_of_length p rfl (show instrLength 0x4D#8 = 2 by decide)
@[simp] theorem State.advance_jmp (rA : Byte) : t.advance (.jmp rA) p = t := rfl
@[simp] theorem State.advance_jeq (rA : Byte) : t.advance (.jeq rA) p = t := rfl
@[simp] theorem State.advance_jne (rA : Byte) : t.advance (.jne rA) p = t := rfl
@[simp] theorem State.advance_inc (rA : Byte) : t.advance (.inc rA) p = t.setPc (p + 2#9) :=
  t.advance_of_length p rfl (show instrLength 0x78#8 = 2 by decide)
@[simp] theorem State.advance_dec (rA : Byte) : t.advance (.dec rA) p = t.setPc (p + 2#9) :=
  t.advance_of_length p rfl (show instrLength 0x79#8 = 2 by decide)
@[simp] theorem State.advance_ldi (rA rB : Byte) : t.advance (.ldi rA rB) p = t.setPc (p + 3#9) :=
  t.advance_of_length p rfl (show instrLength 0x99#8 = 3 by decide)
@[simp] theorem State.advance_st (rA rB : Byte) : t.advance (.st rA rB) p = t.setPc (p + 3#9) :=
  t.advance_of_length p rfl (show instrLength 0x9A#8 = 3 by decide)
@[simp] theorem State.advance_cmp (rA rB : Byte) : t.advance (.cmp rA rB) p = t.setPc (p + 3#9) :=
  t.advance_of_length p rfl (show instrLength 0xA0#8 = 3 by decide)
@[simp] theorem State.advance_add (rA rB : Byte) : t.advance (.add rA rB) p = t.setPc (p + 3#9) :=
  t.advance_of_length p rfl (show instrLength 0xA8#8 = 3 by decide)
@[simp] theorem State.advance_sub (rA rB : Byte) : t.advance (.sub rA rB) p = t.setPc (p + 3#9) :=
  t.advance_of_length p rfl (show instrLength 0xA9#8 = 3 by decide)
@[simp] theorem State.advance_mul (rA rB : Byte) : t.advance (.mul rA rB) p = t.setPc (p + 3#9) :=
  t.advance_of_length p rfl (show instrLength 0xAA#8 = 3 by decide)
@[simp] theorem State.advance_div (rA rB : Byte) : t.advance (.div rA rB) p = t.setPc (p + 3#9) :=
  t.advance_of_length p rfl (show instrLength 0xAB#8 = 3 by decide)

end Sys2Proof.Machine
end

