-- ==== Sys2Proof/Laws/Memory.lean ====
section
/-! SUPPORT. The laws of the memory array: a read after a write, and the canonical form, which every
memory operation keeps (spec/20_memory.md R51 to R54). -/

namespace Sys2Proof.Machine

@[simp] theorem memSize_eq : Config.memSize = 256 := rfl

@[simp] theorem unlistedByte_eq : Config.unlistedByte = 0#8 := rfl

@[simp] theorem Memory.read_nil (a : Nat) : Memory.read [] a = 0#8 := rfl

theorem Memory.read_cons (k a : Nat) (v : Byte) (m : Memory) :
    Memory.read ((k, v) :: m) a = if k = a then v else Memory.read m a := rfl

/-! ### Reads after the parts of a write -/

theorem Memory.read_erase (m : Memory) (a b : Nat) :
    Memory.read (Memory.erase a m) b = if b = a then 0#8 else Memory.read m b := by
  induction m with
  | nil => simp [Memory.erase]
  | cons c m ih =>
    obtain ⟨k, w⟩ := c
    by_cases hk : k = a
    · subst k; by_cases hb : b = a
      · subst b; simpa [Memory.erase] using ih
      · simp [Memory.erase, ih, hb, Memory.read_cons, Ne.symm hb]
    · by_cases hb : b = a
      · subst b; simp [Memory.erase, hk, Memory.read_cons, ih]
      · simp [Memory.erase, hk, Memory.read_cons, ih, hb]

theorem Memory.read_insert_ne (m : Memory) {a b : Nat} (v : Byte) (h : b ≠ a) :
    Memory.read (Memory.insert a v m) b = Memory.read m b := by
  induction m with
  | nil => simp [Memory.insert, Memory.read_cons, Ne.symm h]
  | cons c m ih =>
    obtain ⟨k, w⟩ := c
    by_cases hk : a < k
    · simp [Memory.insert, hk, Memory.read_cons, Ne.symm h]
    · simp [Memory.insert, hk, Memory.read_cons, ih]

theorem Memory.read_insert_erase_self (m : Memory) (a : Nat) (v : Byte) :
    Memory.read (Memory.insert a v (Memory.erase a m)) a = v := by
  induction m with
  | nil => simp [Memory.erase, Memory.insert, Memory.read_cons]
  | cons c m ih =>
    obtain ⟨k, w⟩ := c
    by_cases hk : k = a
    · simp [Memory.erase, hk, ih]
    · by_cases hl : a < k
      · simp [Memory.erase, hk, Memory.insert, hl, Memory.read_cons]
      · simp [Memory.erase, hk, Memory.insert, hl, Memory.read_cons, ih]

/-- A byte written is the byte read back (R54). -/
@[simp] theorem Memory.read_write_self (m : Memory) (a : Nat) (v : Byte) :
    (m.write a v).read a = v := by
  by_cases hv : v = 0#8
  · simp [Memory.write, hv, Memory.read_erase]
  · simp [Memory.write, hv, Memory.read_insert_erase_self]

/-- A write leaves every other byte alone (R54). -/
@[simp] theorem Memory.read_write_ne (m : Memory) {a b : Nat} (v : Byte) (h : b ≠ a) :
    (m.write a v).read b = m.read b := by
  by_cases hv : v = 0#8
  · simp [Memory.write, hv, Memory.read_erase, h]
  · simp [Memory.write, hv, Memory.read_insert_ne _ _ h, Memory.read_erase, h]

theorem Memory.read_write (m : Memory) (a b : Nat) (v : Byte) :
    (m.write a v).read b = if b = a then v else m.read b := by
  split
  · subst b; simp
  · next h => simp [h]

/-! ### The canonical form -/

theorem Memory.above_mono {lo lo' : Nat} {m : Memory} (h : lo' ≤ lo) (ha : Memory.above lo m = true) :
    Memory.above lo' m = true := by
  induction m with
  | nil => rfl
  | cons c m ih =>
    simp only [Memory.above, Bool.and_eq_true, decide_eq_true_eq] at ha ⊢
    exact ⟨by omega, ih ha.2⟩

theorem Memory.above_erase {lo a : Nat} {m : Memory} (h : Memory.above lo m = true) :
    Memory.above lo (Memory.erase a m) = true := by
  induction m with
  | nil => rfl
  | cons c m ih =>
    simp only [Memory.above, Bool.and_eq_true, decide_eq_true_eq] at h
    by_cases hk : c.1 = a
    · simp [Memory.erase, hk, ih h.2]
    · simp [Memory.erase, hk, Memory.above, h.1, ih h.2]

theorem Memory.above_insert {lo a : Nat} {v : Byte} {m : Memory} (hl : lo < a)
    (h : Memory.above lo m = true) : Memory.above lo (Memory.insert a v m) = true := by
  induction m with
  | nil => simp [Memory.insert, Memory.above, hl]
  | cons c m ih =>
    simp only [Memory.above, Bool.and_eq_true, decide_eq_true_eq] at h
    by_cases hk : a < c.1
    · simp [Memory.insert, hk, Memory.above, hl, h.1, h.2]
    · simp [Memory.insert, hk, Memory.above, h.1, ih h.2]

theorem Memory.wf_cons {k : Nat} {v : Byte} {m : Memory} :
    Memory.wf ((k, v) :: m) = true ↔
      k < 256 ∧ v ≠ 0#8 ∧ Memory.above k m = true ∧ Memory.wf m = true := by
  simp only [Memory.wf, Bool.and_eq_true, decide_eq_true_eq, and_assoc]
  rfl

theorem Memory.wf_erase {a : Nat} {m : Memory} (h : m.wf = true) : (Memory.erase a m).wf = true := by
  induction m with
  | nil => rfl
  | cons c m ih =>
    obtain ⟨k, w⟩ := c
    obtain ⟨hk, hw, ha, hm⟩ := Memory.wf_cons.mp h
    by_cases he : k = a
    · simpa [Memory.erase, he] using ih hm
    · simpa [Memory.erase, he] using Memory.wf_cons.mpr ⟨hk, hw, Memory.above_erase ha, ih hm⟩

/-- Inserting at an address that no cell holds keeps the form. -/
theorem Memory.wf_insert {a : Nat} {v : Byte} {m : Memory} (ha : a < 256) (hv : v ≠ 0#8)
    (hn : Memory.erase a m = m) (h : m.wf = true) : (Memory.insert a v m).wf = true := by
  induction m with
  | nil => exact Memory.wf_cons.mpr ⟨ha, hv, rfl, rfl⟩
  | cons c m ih =>
    obtain ⟨k, w⟩ := c
    obtain ⟨hk, hw, hab, hm⟩ := Memory.wf_cons.mp h
    have hka : k ≠ a := by
      intro e
      have hlen : (Memory.erase a m).length ≤ m.length := by
        clear * -
        induction m with
        | nil => simp [Memory.erase]
        | cons d m ih => by_cases hd : d.1 = a <;> simp [Memory.erase, hd] <;> omega
      have := congrArg List.length hn
      simp [Memory.erase, e] at this
      omega
    have hn' : Memory.erase a m = m := by simpa [Memory.erase, hka] using hn
    by_cases hl : a < k
    · simp only [Memory.insert, hl, if_true]
      refine Memory.wf_cons.mpr ⟨ha, hv, ?_, h⟩
      simp [Memory.above, hl, Memory.above_mono (Nat.le_of_lt hl) hab]
    · simp only [Memory.insert, hl, if_false]
      exact Memory.wf_cons.mpr ⟨hk, hw, Memory.above_insert (by omega) hab, ih hn' hm⟩

theorem Memory.erase_erase (a : Nat) (m : Memory) :
    Memory.erase a (Memory.erase a m) = Memory.erase a m := by
  induction m with
  | nil => rfl
  | cons c m ih => by_cases h : c.1 = a <;> simp [Memory.erase, h, ih]

/-- A write inside the memory keeps the canonical form. -/
theorem Memory.wf_write {a : Nat} {v : Byte} {m : Memory} (ha : a < 256) (h : m.wf = true) :
    (m.write a v).wf = true := by
  by_cases hv : v = 0#8
  · simpa [Memory.write, hv] using Memory.wf_erase h
  · simpa [Memory.write, hv] using
      Memory.wf_insert ha hv (Memory.erase_erase a m) (Memory.wf_erase h)

theorem Memory.wf_placeBytes {m : Memory} (a : Nat) (bs : List Byte) (h : m.wf = true) :
    (m.placeBytes a bs).wf = true := by
  induction bs generalizing m a with
  | nil => exact h
  | cons b bs ih =>
    simp only [Memory.placeBytes]
    apply ih
    split
    · next ha => exact Memory.wf_write ha h
    · exact h

/-! ### The bounds-checked primitives -/

/-- Everything `memRead` can do (R52). -/
theorem memRead_cases (s : State) (a : Nat) :
    (a < 256 ∧ memRead s a = .ok (s.mem.read a)) ∨
    (256 ≤ a ∧ memRead s a = .error (.outOfBoundsMem a)) := by
  by_cases h : a < 256
  · exact .inl ⟨h, by simp [memRead, h]⟩
  · exact .inr ⟨by omega, by simp [memRead, h]⟩

@[simp] theorem memRead_of_lt {s : State} {a : Nat} (h : a < 256) :
    memRead s a = .ok (s.mem.read a) := by simp [memRead, h]

@[simp] theorem memRead_of_ge {s : State} {a : Nat} (h : 256 ≤ a) :
    memRead s a = .error (.outOfBoundsMem a) := by simp [memRead, Nat.not_lt.mpr h]

/-- Everything `memWrite` can do (R53). -/
theorem memWrite_cases (s : State) (a v : Nat) :
    (a < 256 ∧ memWrite s a v = .ok { s with mem := s.mem.write a (BitVec.ofNat 8 v) }) ∨
    (256 ≤ a ∧ memWrite s a v = .error (.outOfBoundsMem a)) := by
  by_cases h : a < 256
  · exact .inl ⟨h, by simp [memWrite, h]⟩
  · exact .inr ⟨by omega, by simp [memWrite, h]⟩

@[simp] theorem memWrite_of_lt {s : State} {a v : Nat} (h : a < 256) :
    memWrite s a v = .ok { s with mem := s.mem.write a (BitVec.ofNat 8 v) } := by
  simp [memWrite, h]

/-- The read at a register's value is always in range (R56). -/
@[simp] theorem memRead_byte (s : State) (b : Byte) :
    memRead s b.toNat = .ok (s.mem.read b.toNat) := memRead_of_lt b.isLt

/-- The write at a register's value is always in range (R56). -/
@[simp] theorem memWrite_byte (s : State) (b : Byte) (v : Nat) :
    memWrite s b.toNat v = .ok { s with mem := s.mem.write b.toNat (BitVec.ofNat 8 v) } :=
  memWrite_of_lt b.isLt

/-- A write keeps the canonical form of the memory. -/
theorem memWrite_wf {s t : State} {a v : Nat} (h : memWrite s a v = .ok t) (hw : s.mem.wf = true) :
    t.mem.wf = true := by
  obtain ⟨ha, he⟩ | ⟨_, he⟩ := memWrite_cases s a v
  · rw [he] at h; cases h; exact Memory.wf_write ha hw
  · rw [he] at h; cases h

end Sys2Proof.Machine
end

