-- ==== Sys2Proof/Laws/State.lean ====
section
/-! SUPPORT. One lemma per field per named update of State, and how register reads see register writes.
No later proof unfolds a record update. -/

namespace Sys2Proof.Machine

variable (s : State)

@[simp] theorem State.setReg_regs (r : RegName) (v : Byte) : (s.setReg r v).regs = s.regs.set r.val v := rfl
@[simp] theorem State.setReg_pc (r : RegName) (v : Byte) : (s.setReg r v).pc = s.pc := rfl
@[simp] theorem State.setReg_fl (r : RegName) (v : Byte) : (s.setReg r v).fl = s.fl := rfl
@[simp] theorem State.setReg_mem (r : RegName) (v : Byte) : (s.setReg r v).mem = s.mem := rfl
@[simp] theorem State.setReg_run (r : RegName) (v : Byte) : (s.setReg r v).run = s.run := rfl
@[simp] theorem State.setReg_haltCause (r : RegName) (v : Byte) : (s.setReg r v).haltCause = s.haltCause := rfl
@[simp] theorem State.setReg_clockOn (r : RegName) (v : Byte) : (s.setReg r v).clockOn = s.clockOn := rfl
@[simp] theorem State.setReg_fault (r : RegName) (v : Byte) : (s.setReg r v).fault = s.fault := rfl
@[simp] theorem State.setReg_out (r : RegName) (v : Byte) : (s.setReg r v).out = s.out := rfl

@[simp] theorem State.setSp_regs (v : Byte) : (s.setSp v).regs = s.regs.set Config.spIndex.val v := rfl
@[simp] theorem State.setSp_pc (v : Byte) : (s.setSp v).pc = s.pc := rfl
@[simp] theorem State.setSp_fl (v : Byte) : (s.setSp v).fl = s.fl := rfl
@[simp] theorem State.setSp_mem (v : Byte) : (s.setSp v).mem = s.mem := rfl
@[simp] theorem State.setSp_run (v : Byte) : (s.setSp v).run = s.run := rfl
@[simp] theorem State.setSp_haltCause (v : Byte) : (s.setSp v).haltCause = s.haltCause := rfl
@[simp] theorem State.setSp_clockOn (v : Byte) : (s.setSp v).clockOn = s.clockOn := rfl
@[simp] theorem State.setSp_fault (v : Byte) : (s.setSp v).fault = s.fault := rfl
@[simp] theorem State.setSp_out (v : Byte) : (s.setSp v).out = s.out := rfl

@[simp] theorem State.setPc_regs (p : PcWord) : (s.setPc p).regs = s.regs := rfl
@[simp] theorem State.setPc_pc (p : PcWord) : (s.setPc p).pc = p := rfl
@[simp] theorem State.setPc_fl (p : PcWord) : (s.setPc p).fl = s.fl := rfl
@[simp] theorem State.setPc_mem (p : PcWord) : (s.setPc p).mem = s.mem := rfl
@[simp] theorem State.setPc_run (p : PcWord) : (s.setPc p).run = s.run := rfl
@[simp] theorem State.setPc_haltCause (p : PcWord) : (s.setPc p).haltCause = s.haltCause := rfl
@[simp] theorem State.setPc_clockOn (p : PcWord) : (s.setPc p).clockOn = s.clockOn := rfl
@[simp] theorem State.setPc_fault (p : PcWord) : (s.setPc p).fault = s.fault := rfl
@[simp] theorem State.setPc_out (p : PcWord) : (s.setPc p).out = s.out := rfl

@[simp] theorem State.setFl_regs (v : Byte) : (s.setFl v).regs = s.regs := rfl
@[simp] theorem State.setFl_pc (v : Byte) : (s.setFl v).pc = s.pc := rfl
@[simp] theorem State.setFl_fl (v : Byte) : (s.setFl v).fl = v := rfl
@[simp] theorem State.setFl_mem (v : Byte) : (s.setFl v).mem = s.mem := rfl
@[simp] theorem State.setFl_run (v : Byte) : (s.setFl v).run = s.run := rfl
@[simp] theorem State.setFl_haltCause (v : Byte) : (s.setFl v).haltCause = s.haltCause := rfl
@[simp] theorem State.setFl_clockOn (v : Byte) : (s.setFl v).clockOn = s.clockOn := rfl
@[simp] theorem State.setFl_fault (v : Byte) : (s.setFl v).fault = s.fault := rfl
@[simp] theorem State.setFl_out (v : Byte) : (s.setFl v).out = s.out := rfl

@[simp] theorem State.decSp_regs : (s.decSp).regs = s.regs.set Config.spIndex.val (s.sp - 1#8) := rfl
@[simp] theorem State.decSp_pc : (s.decSp).pc = s.pc := rfl
@[simp] theorem State.decSp_fl : (s.decSp).fl = s.fl := rfl
@[simp] theorem State.decSp_mem : (s.decSp).mem = s.mem := rfl
@[simp] theorem State.decSp_run : (s.decSp).run = s.run := rfl
@[simp] theorem State.decSp_haltCause : (s.decSp).haltCause = s.haltCause := rfl
@[simp] theorem State.decSp_clockOn : (s.decSp).clockOn = s.clockOn := rfl
@[simp] theorem State.decSp_fault : (s.decSp).fault = s.fault := rfl
@[simp] theorem State.decSp_out : (s.decSp).out = s.out := rfl

@[simp] theorem State.incSp_regs : (s.incSp).regs = s.regs.set Config.spIndex.val (s.sp + 1#8) := rfl
@[simp] theorem State.incSp_pc : (s.incSp).pc = s.pc := rfl
@[simp] theorem State.incSp_fl : (s.incSp).fl = s.fl := rfl
@[simp] theorem State.incSp_mem : (s.incSp).mem = s.mem := rfl
@[simp] theorem State.incSp_run : (s.incSp).run = s.run := rfl
@[simp] theorem State.incSp_haltCause : (s.incSp).haltCause = s.haltCause := rfl
@[simp] theorem State.incSp_clockOn : (s.incSp).clockOn = s.clockOn := rfl
@[simp] theorem State.incSp_fault : (s.incSp).fault = s.fault := rfl
@[simp] theorem State.incSp_out : (s.incSp).out = s.out := rfl

@[simp] theorem State.emit_regs (v : Byte) : (s.emit v).regs = s.regs := rfl
@[simp] theorem State.emit_pc (v : Byte) : (s.emit v).pc = s.pc := rfl
@[simp] theorem State.emit_fl (v : Byte) : (s.emit v).fl = s.fl := rfl
@[simp] theorem State.emit_mem (v : Byte) : (s.emit v).mem = s.mem := rfl
@[simp] theorem State.emit_run (v : Byte) : (s.emit v).run = s.run := rfl
@[simp] theorem State.emit_haltCause (v : Byte) : (s.emit v).haltCause = s.haltCause := rfl
@[simp] theorem State.emit_clockOn (v : Byte) : (s.emit v).clockOn = s.clockOn := rfl
@[simp] theorem State.emit_fault (v : Byte) : (s.emit v).fault = s.fault := rfl
@[simp] theorem State.emit_out (v : Byte) : (s.emit v).out = s.out ++ [v] := rfl

@[simp] theorem State.haltHlt_regs : (s.haltHlt).regs = s.regs := rfl
@[simp] theorem State.haltHlt_pc : (s.haltHlt).pc = s.pc := rfl
@[simp] theorem State.haltHlt_fl : (s.haltHlt).fl = s.fl := rfl
@[simp] theorem State.haltHlt_mem : (s.haltHlt).mem = s.mem := rfl
@[simp] theorem State.haltHlt_run : (s.haltHlt).run = .halted := rfl
@[simp] theorem State.haltHlt_haltCause : (s.haltHlt).haltCause = .hlt := rfl
@[simp] theorem State.haltHlt_clockOn : (s.haltHlt).clockOn = false := rfl
@[simp] theorem State.haltHlt_fault : (s.haltHlt).fault = s.fault := rfl
@[simp] theorem State.haltHlt_out : (s.haltHlt).out = s.out := rfl

@[simp] theorem State.takeFault_regs (f : Fault) : (s.takeFault f).regs = s.regs := rfl
@[simp] theorem State.takeFault_pc (f : Fault) : (s.takeFault f).pc = s.pc := rfl
@[simp] theorem State.takeFault_fl (f : Fault) : (s.takeFault f).fl = s.fl := rfl
@[simp] theorem State.takeFault_mem (f : Fault) : (s.takeFault f).mem = s.mem := rfl
@[simp] theorem State.takeFault_run (f : Fault) : (s.takeFault f).run = .halted := rfl
@[simp] theorem State.takeFault_haltCause (f : Fault) : (s.takeFault f).haltCause = .fault := rfl
@[simp] theorem State.takeFault_clockOn (f : Fault) : (s.takeFault f).clockOn = false := rfl
@[simp] theorem State.takeFault_fault (f : Fault) : (s.takeFault f).fault = ⟨f.code, s.pc, f.info⟩ := rfl
@[simp] theorem State.takeFault_out (f : Fault) : (s.takeFault f).out = s.out := rfl

/-! ### Register reads after updates -/

@[simp] theorem State.reg_setReg_self (r : RegName) (v : Byte) : (s.setReg r v).reg r = v := by
  simp [State.reg]

@[simp] theorem State.reg_setReg_ne {q r : RegName} (v : Byte) (h : q ≠ r) :
    (s.setReg r v).reg q = s.reg q := by
  have h' : r.val ≠ q.val := fun e => h (Fin.ext e.symm)
  simp [State.reg, h']

theorem State.reg_setReg (q r : RegName) (v : Byte) :
    (s.setReg r v).reg q = if q = r then v else s.reg q := by
  split
  · subst q; simp
  · next h => simp [h]

@[simp] theorem State.sp_setSp (v : Byte) : (s.setSp v).sp = v := by simp [State.setSp, State.sp]

@[simp] theorem State.reg_setSp_ne {q : RegName} (v : Byte) (h : q ≠ Config.spIndex) :
    (s.setSp v).reg q = s.reg q := by simp [State.setSp, h]

theorem State.sp_decSp : s.decSp.sp = s.sp - 1#8 := by simp [State.decSp]

theorem State.sp_incSp : s.incSp.sp = s.sp + 1#8 := by simp [State.incSp]

@[simp] theorem State.reg_decSp_ne {q : RegName} (h : q ≠ Config.spIndex) :
    s.decSp.reg q = s.reg q := by simp [State.decSp, h]

@[simp] theorem State.reg_incSp_ne {q : RegName} (h : q ≠ Config.spIndex) :
    s.incSp.reg q = s.reg q := by simp [State.incSp, h]

@[simp] theorem State.reg_setPc (p : PcWord) (q : RegName) : (s.setPc p).reg q = s.reg q := rfl
@[simp] theorem State.sp_setPc (p : PcWord) : (s.setPc p).sp = s.sp := rfl
@[simp] theorem State.reg_setFl (v : Byte) (q : RegName) : (s.setFl v).reg q = s.reg q := rfl
@[simp] theorem State.sp_setFl (v : Byte) : (s.setFl v).sp = s.sp := rfl
@[simp] theorem State.reg_emit (v : Byte) (q : RegName) : (s.emit v).reg q = s.reg q := rfl
@[simp] theorem State.sp_emit (v : Byte) : (s.emit v).sp = s.sp := rfl
@[simp] theorem State.reg_haltHlt (q : RegName) : (s.haltHlt).reg q = s.reg q := rfl
@[simp] theorem State.sp_haltHlt : (s.haltHlt).sp = s.sp := rfl
@[simp] theorem State.reg_takeFault (f : Fault) (q : RegName) : (s.takeFault f).reg q = s.reg q := rfl
@[simp] theorem State.sp_takeFault (f : Fault) : (s.takeFault f).sp = s.sp := rfl

/-- A state is its nine fields, with the registers read one by one. -/
theorem State.ext_reg {s t : State} (regs : ∀ r, s.reg r = t.reg r) (pc : s.pc = t.pc)
    (fl : s.fl = t.fl) (mem : s.mem = t.mem) (run : s.run = t.run)
    (haltCause : s.haltCause = t.haltCause) (clockOn : s.clockOn = t.clockOn)
    (fault : s.fault = t.fault) (out : s.out = t.out) : s = t := by
  have hregs : s.regs = t.regs := Vector.ext fun i hi => regs ⟨i, hi⟩
  cases s; cases t; simp_all

end Sys2Proof.Machine
end

