-- ==== Sys2Proof/Laws/Ops.lean ====
section
/-! SUPPORT. One lemma for each shared operation that says everything it can do: the register selector,
the completion of a tick, the fetch. -/

namespace Sys2Proof.Machine

/-! ### Register selectors (R84) -/

/-- Everything `regIdx` can do. -/
theorem regIdx_cases (b : Byte) :
    (∃ r : RegName, b.toNat = r.val ∧ regIdx b = .ok r) ∨
    (8 ≤ b.toNat ∧ regIdx b = .error (.outOfBoundsReg b)) := by
  by_cases h : b.toNat < 8
  · exact .inl ⟨⟨b.toNat, h⟩, rfl, by simp [regIdx, h]⟩
  · exact .inr ⟨by omega, by simp [regIdx, h]⟩

theorem regIdx_of_eq {b : Byte} {r : RegName} (h : b.toNat = r.val) : regIdx b = .ok r := by
  have hb : b.toNat < 8 := h ▸ r.isLt
  simp [regIdx, h]

theorem regIdx_of_ge {b : Byte} (h : 8 ≤ b.toNat) : regIdx b = .error (.outOfBoundsReg b) := by
  simp [regIdx, Nat.not_lt.mpr h]

theorem regPair_of_eq {opA opB : Byte} {a b : RegName} (ha : opA.toNat = a.val)
    (hb : opB.toNat = b.val) : regPair opA opB = .ok (a, b) := by
  simp only [regPair, regIdx_of_eq ha, regIdx_of_eq hb]
  rfl

theorem regPair_of_ge_left {opA opB : Byte} (h : 8 ≤ opA.toNat) :
    regPair opA opB = .error (.outOfBoundsReg opA) := by
  simp only [regPair, regIdx_of_ge h]
  rfl

theorem regPair_of_ge_right {opA opB : Byte} {a : RegName} (ha : opA.toNat = a.val)
    (h : 8 ≤ opB.toNat) : regPair opA opB = .error (.outOfBoundsReg opB) := by
  simp only [regPair, regIdx_of_eq ha, regIdx_of_ge h]
  rfl

/-- Everything `regPair` can do. -/
theorem regPair_cases (opA opB : Byte) :
    (∃ a b : RegName, opA.toNat = a.val ∧ opB.toNat = b.val ∧ regPair opA opB = .ok (a, b)) ∨
    (∃ sel, 8 ≤ sel.toNat ∧ regPair opA opB = .error (.outOfBoundsReg sel)) := by
  obtain ⟨a, ha, _⟩ | ⟨ha, _⟩ := regIdx_cases opA
  · obtain ⟨b, hb, _⟩ | ⟨hb, _⟩ := regIdx_cases opB
    · exact .inl ⟨a, b, ha, hb, regPair_of_eq ha hb⟩
    · exact .inr ⟨opB, hb, regPair_of_ge_right ha hb⟩
  · exact .inr ⟨opA, ha, regPair_of_ge_left ha⟩

/-! ### Completing a tick -/

@[simp] theorem completeTick_ok (i : Instr) (s t : State) :
    completeTick i s (.ok t) = .next (t.advance i s.pc) := rfl

@[simp] theorem completeTick_error (i : Instr) (s : State) (f : Fault) :
    completeTick i s (.error f) = .next (s.takeFault f) := rfl

/-- Everything a completed tick can be: the body's state advanced, or the fault entry. -/
theorem completeTick_next {i : Instr} {s t : State} {body : Except Fault State}
    (h : completeTick i s body = .next t) :
    (∃ u, body = .ok u ∧ t = u.advance i s.pc) ∨ (∃ f, body = .error f ∧ t = s.takeFault f) := by
  cases body with
  | ok u => exact .inl ⟨u, rfl, by simpa using h.symm⟩
  | error f => exact .inr ⟨f, rfl, by simpa using h.symm⟩

theorem State.advance_of_setsPc {t : State} {i : Instr} {p : PcWord} (h : i.setsPc = true) :
    t.advance i p = t := by simp [State.advance, h]

theorem State.advance_of_not_setsPc {t : State} {i : Instr} {p : PcWord} (h : i.setsPc = false) :
    t.advance i p = t.setPc (p + BitVec.ofNat 9 (instrLength i.opcode)) := by
  simp [State.advance, h]

@[simp] theorem State.advance_regs (t : State) (i : Instr) (p : PcWord) :
    (t.advance i p).regs = t.regs := by unfold State.advance; split <;> rfl
@[simp] theorem State.advance_fl (t : State) (i : Instr) (p : PcWord) :
    (t.advance i p).fl = t.fl := by unfold State.advance; split <;> rfl
@[simp] theorem State.advance_mem (t : State) (i : Instr) (p : PcWord) :
    (t.advance i p).mem = t.mem := by unfold State.advance; split <;> rfl
@[simp] theorem State.advance_run (t : State) (i : Instr) (p : PcWord) :
    (t.advance i p).run = t.run := by unfold State.advance; split <;> rfl
@[simp] theorem State.advance_haltCause (t : State) (i : Instr) (p : PcWord) :
    (t.advance i p).haltCause = t.haltCause := by unfold State.advance; split <;> rfl
@[simp] theorem State.advance_clockOn (t : State) (i : Instr) (p : PcWord) :
    (t.advance i p).clockOn = t.clockOn := by unfold State.advance; split <;> rfl
@[simp] theorem State.advance_fault (t : State) (i : Instr) (p : PcWord) :
    (t.advance i p).fault = t.fault := by unfold State.advance; split <;> rfl
@[simp] theorem State.advance_out (t : State) (i : Instr) (p : PcWord) :
    (t.advance i p).out = t.out := by unfold State.advance; split <;> rfl
@[simp] theorem State.reg_advance (t : State) (i : Instr) (p : PcWord) (q : RegName) :
    (t.advance i p).reg q = t.reg q := by unfold State.advance; split <;> rfl

/-! ### The fetch (R95, R96) -/

/-- The three bytes at pc, where all three exist. -/
theorem fetch_of_le {s : State} (h : s.pc.toNat ≤ 253) :
    fetch s = .ok ⟨s.mem.read s.pc.toNat, s.mem.read (s.pc.toNat + 1),
      s.mem.read (s.pc.toNat + 2)⟩ := by
  simp only [fetch, memRead_of_lt (show s.pc.toNat < 256 by omega),
    memRead_of_lt (show s.pc.toNat + 1 < 256 by omega),
    memRead_of_lt (show s.pc.toNat + 2 < 256 by omega)]
  rfl

/-- Where one of the three does not exist, the first such address is reported (R201). -/
theorem fetch_of_gt {s : State} (h : 253 < s.pc.toNat) :
    fetch s = .error (.outOfBoundsMem (max s.pc.toNat 256)) := by
  rcases Nat.lt_or_ge s.pc.toNat 256 with h0 | h0
  · rcases Nat.lt_or_ge (s.pc.toNat + 1) 256 with h1 | h1
    · rw [show max s.pc.toNat 256 = s.pc.toNat + 2 by omega]
      simp only [fetch, memRead_of_lt h0, memRead_of_lt h1,
        memRead_of_ge (show 256 ≤ s.pc.toNat + 2 by omega)]
      rfl
    · rw [show max s.pc.toNat 256 = s.pc.toNat + 1 by omega]
      simp only [fetch, memRead_of_lt h0, memRead_of_ge h1]
      rfl
  · rw [show max s.pc.toNat 256 = s.pc.toNat by omega]
    simp only [fetch, memRead_of_ge h0]
    rfl

/-- The instruction at pc, where its three bytes exist. -/
theorem fetchInstr_of_le {s : State} (h : s.pc.toNat ≤ 253) :
    fetchInstr s =
      match decodeFetched (s.mem.read s.pc.toNat) (s.mem.read (s.pc.toNat + 1))
        (s.mem.read (s.pc.toNat + 2)) with
      | .ok i => .ok i
      | .error _ => .error (.illegalInstruction (s.mem.read s.pc.toNat)) := by
  simp only [fetchInstr, fetch_of_le h]
  rfl

end Sys2Proof.Machine
end

