-- ==== Sys2Proof/Laws/Alu.lean ====
section
/-! SUPPORT. What the two shared ALU shapes can do (spec/40_alu.md R120). -/

namespace Sys2Proof.Machine

/-- Everything `aluTwoReg` can do: write `x[a]`, or raise OutOfBounds(REG). -/
theorem aluTwoReg_cases (f : Byte → Byte → Byte) (rA rB : Byte) (s : State) :
    (∃ a b : RegName, rA.toNat = a.val ∧ rB.toNat = b.val ∧
      aluTwoReg f rA rB s = .ok (s.setReg a (f (s.reg a) (s.reg b)))) ∨
    (∃ sel, 8 ≤ sel.toNat ∧ aluTwoReg f rA rB s = .error (.outOfBoundsReg sel)) := by
  obtain ⟨a, b, ha, hb, h⟩ | ⟨sel, hs, h⟩ := regPair_cases rA rB
  · exact .inl ⟨a, b, ha, hb, by simp only [aluTwoReg, h]; rfl⟩
  · exact .inr ⟨sel, hs, by simp only [aluTwoReg, h]; rfl⟩

/-- Everything `aluOneReg` can do. -/
theorem aluOneReg_cases (f : Byte → Byte) (rA : Byte) (s : State) :
    (∃ a : RegName, rA.toNat = a.val ∧ aluOneReg f rA s = .ok (s.setReg a (f (s.reg a)))) ∨
    (8 ≤ rA.toNat ∧ aluOneReg f rA s = .error (.outOfBoundsReg rA)) := by
  obtain ⟨a, ha, h⟩ | ⟨hs, h⟩ := regIdx_cases rA
  · exact .inl ⟨a, ha, by simp only [aluOneReg, h]; rfl⟩
  · exact .inr ⟨hs, by simp only [aluOneReg, h]; rfl⟩

end Sys2Proof.Machine
end

