-- ==== Sys2Proof/Laws/Decode.lean ====
section
/-! SUPPORT. What the decoder can answer (spec/30_encoding.md R87, R88, R102). -/

namespace Sys2Proof.Machine

/-- Everything `decodeFetched` can do: an instruction with that opcode byte, or the rejection of an
opcode byte that is none of the 18. -/
theorem decodeFetched_cases (op opA opB : Byte) :
    (op ∈ opcodesOfR87 ∧ ∃ i, decodeFetched op opA opB = .ok i ∧ i.opcode = op) ∨
    (op ∉ opcodesOfR87 ∧ decodeFetched op opA opB = .error (.illegalOpcode op)) := by
  unfold decodeFetched
  split
  all_goals first
    | exact .inl ⟨by decide, _, rfl, rfl⟩
    | refine .inr ⟨?_, rfl⟩
      simp only [opcodesOfR87, List.mem_cons, List.not_mem_nil, or_false, not_or]
      refine ⟨?_, ?_, ?_, ?_, ?_, ?_, ?_, ?_, ?_, ?_, ?_, ?_, ?_, ?_, ?_, ?_, ?_, ?_⟩ <;> assumption

end Sys2Proof.Machine
end

