-- ==== Sys2Proof/Laws/Exec.lean ====
section
/-! SUPPORT. The inversion of `exec` and `step`: everything one instruction and one tick can do, said
once (spec/30_encoding.md R95). Later proofs cite `exec_cases` and `step_cases` instead of unfolding
the meanings. -/

namespace Sys2Proof.Machine

/-- `Effect s i u`: the rule of `i`, run without a raise from `s`, leaves `u` before the default
advance. -/
inductive Effect (s : State) : Instr → State → Prop where
  | hlt : Effect s .hlt s.haltHlt
  | ret : Effect s .ret (s.setPc (targetPc (s.mem.read s.sp.toNat))).incSp
  | prn {rA : Byte} {a : RegName} (ha : rA.toNat = a.val) : Effect s (.prn rA) (s.emit (s.reg a))
  | call {rA : Byte} {a : RegName} (ha : rA.toNat = a.val) :
      Effect s (.call rA)
        { s.decSp with
          mem := s.mem.write s.decSp.sp.toNat (BitVec.ofNat 8 (s.pc.toNat + 2))
          pc := targetPc (s.decSp.reg a) }
  | pop {rA : Byte} {a : RegName} (ha : rA.toNat = a.val) :
      Effect s (.pop rA) (s.setReg a (s.mem.read s.sp.toNat)).incSp
  | push {rA : Byte} {a : RegName} (ha : rA.toNat = a.val) :
      Effect s (.push rA) { s.decSp with mem := s.mem.write s.decSp.sp.toNat (s.decSp.reg a) }
  | jmp {rA : Byte} {a : RegName} (ha : rA.toNat = a.val) :
      Effect s (.jmp rA) (s.setPc (targetPc (s.reg a)))
  | jeq {rA : Byte} {a : RegName} (ha : rA.toNat = a.val) :
      Effect s (.jeq rA) (s.setPc (if s.equalHeld then targetPc (s.reg a) else fallThrough s))
  | jne {rA : Byte} {a : RegName} (ha : rA.toNat = a.val) :
      Effect s (.jne rA) (s.setPc (if s.equalHeld then fallThrough s else targetPc (s.reg a)))
  | inc {rA : Byte} {a : RegName} (ha : rA.toNat = a.val) :
      Effect s (.inc rA) (s.setReg a (s.reg a + 1#8))
  | dec {rA : Byte} {a : RegName} (ha : rA.toNat = a.val) :
      Effect s (.dec rA) (s.setReg a (s.reg a + 255#8))
  | ldi {rA v : Byte} {a : RegName} (ha : rA.toNat = a.val) : Effect s (.ldi rA v) (s.setReg a v)
  | st {rA rB : Byte} {a b : RegName} (ha : rA.toNat = a.val) (hb : rB.toNat = b.val) :
      Effect s (.st rA rB) { s with mem := s.mem.write (s.reg a).toNat (s.reg b) }
  | cmp {rA rB : Byte} {a b : RegName} (ha : rA.toNat = a.val) (hb : rB.toNat = b.val) :
      Effect s (.cmp rA rB) (s.setFl (compareFlags (s.reg a) (s.reg b)))
  | add {rA rB : Byte} {a b : RegName} (ha : rA.toNat = a.val) (hb : rB.toNat = b.val) :
      Effect s (.add rA rB) (s.setReg a (s.reg a + s.reg b))
  | sub {rA rB : Byte} {a b : RegName} (ha : rA.toNat = a.val) (hb : rB.toNat = b.val) :
      Effect s (.sub rA rB) (s.setReg a (s.reg a - s.reg b))
  | mul {rA rB : Byte} {a b : RegName} (ha : rA.toNat = a.val) (hb : rB.toNat = b.val) :
      Effect s (.mul rA rB) (s.setReg a (s.reg a * s.reg b))
  | div {rA rB : Byte} {a b : RegName} (ha : rA.toNat = a.val) (hb : rB.toNat = b.val)
      (hz : s.reg b ≠ 0#8) :
      Effect s (.div rA rB) (s.setReg a (BitVec.ofNat 8 ((s.reg a).toNat / (s.reg b).toNat)))

/-- `Raises s i f`: the rule of `i`, run from `s`, raises `f`: the first selector that names no
register, or a zero divisor (R208, items 5 to 7). -/
inductive Raises (s : State) : Instr → Fault → Prop where
  | selector {i : Instr} {sel : Byte}
      (h : i.selectors.find? (fun b => decide (8 ≤ b.toNat)) = some sel) :
      Raises s i (.outOfBoundsReg sel)
  | div {rA rB : Byte} {a b : RegName} (ha : rA.toNat = a.val) (hb : rB.toNat = b.val)
      (hz : s.reg b = 0#8) : Raises s (.div rA rB) (.divideByZero b)

/-- An effect determines what `exec` answers. -/
theorem exec_of_effect {i : Instr} {s u : State} (h : Effect s i u) :
    exec i s = .next (u.advance i s.pc) := by
  rw [← completeTick_ok]
  cases h with
  | hlt => rfl
  | ret => simp only [exec, execRet, memRead_byte]; rfl
  | prn ha => simp only [exec, execPrn, regIdx_of_eq ha]; rfl
  | call ha => simp only [exec, execCall, regIdx_of_eq ha, bind, Except.bind, memWrite_byte]; rfl
  | pop ha => simp only [exec, execPop, regIdx_of_eq ha, memRead_byte]; rfl
  | push ha =>
    simp only [exec, execPush, regIdx_of_eq ha, bind, Except.bind, memWrite_byte, BitVec.ofNat_toNat,
      BitVec.setWidth_eq]
    rfl
  | jmp ha => simp only [exec, execJmp, regIdx_of_eq ha]; rfl
  | jeq ha => simp only [exec, execJeq, regIdx_of_eq ha]; rfl
  | jne ha => simp only [exec, execJne, regIdx_of_eq ha]; rfl
  | inc ha => simp only [exec, execInc, aluOneReg, regIdx_of_eq ha]; rfl
  | dec ha => simp only [exec, execDec, aluOneReg, regIdx_of_eq ha]; rfl
  | ldi ha => simp only [exec, execLdi, regIdx_of_eq ha]; rfl
  | st ha hb =>
    simp only [exec, execSt, regPair_of_eq ha hb, bind, Except.bind, memWrite_byte,
      BitVec.ofNat_toNat, BitVec.setWidth_eq]
  | cmp ha hb => simp only [exec, execCmp, regPair_of_eq ha hb]; rfl
  | add ha hb => simp only [exec, execAdd, aluTwoReg, regPair_of_eq ha hb]; rfl
  | sub ha hb => simp only [exec, execSub, aluTwoReg, regPair_of_eq ha hb]; rfl
  | mul ha hb => simp only [exec, execMul, aluTwoReg, regPair_of_eq ha hb]; rfl
  | div ha hb hz => simp only [exec, execDiv, regPair_of_eq ha hb, bind, Except.bind, hz, if_false]

/-- A raise that a selector decides, for the instructions of one register operand. -/
theorem exec_oneReg {i : Instr} {rA : Byte} {s : State} (hsel : i.selectors = [rA])
    (hok : ∀ a : RegName, rA.toNat = a.val → ∃ u, Effect s i u)
    (hbad : regIdx rA = .error (.outOfBoundsReg rA) →
      exec i s = .next (s.takeFault (.outOfBoundsReg rA))) :
    (∃ u, Effect s i u) ∨ (∃ f, Raises s i f ∧ exec i s = .next (s.takeFault f)) := by
  obtain ⟨a, ha, _⟩ | ⟨ha, h⟩ := regIdx_cases rA
  · exact .inl (hok a ha)
  · exact .inr ⟨_, .selector (by simp [hsel, ha]), hbad h⟩

/-- A raise that a selector decides, for the instructions of two register operands. -/
theorem exec_twoReg {i : Instr} {rA rB : Byte} {s : State} (hsel : i.selectors = [rA, rB])
    (hok : ∀ a b : RegName, rA.toNat = a.val → rB.toNat = b.val →
      (∃ u, Effect s i u) ∨ (∃ f, Raises s i f ∧ exec i s = .next (s.takeFault f)))
    (hbad : ∀ f, regPair rA rB = .error f → exec i s = .next (s.takeFault f)) :
    (∃ u, Effect s i u) ∨ (∃ f, Raises s i f ∧ exec i s = .next (s.takeFault f)) := by
  rcases Nat.lt_or_ge rA.toNat 8 with ha | ha
  · rcases Nat.lt_or_ge rB.toNat 8 with hb | hb
    · exact hok ⟨_, ha⟩ ⟨_, hb⟩ rfl rfl
    · exact .inr ⟨_, .selector (by simp [hsel, hb, Nat.not_le.mpr ha]),
        hbad _ (regPair_of_ge_right (a := ⟨_, ha⟩) rfl hb)⟩
  · exact .inr ⟨_, .selector (by simp [hsel, ha]), hbad _ (regPair_of_ge_left ha)⟩

/-- From every state an instruction has an effect or raises. -/
theorem exec_total (i : Instr) (s : State) :
    (∃ u, Effect s i u) ∨ (∃ f, Raises s i f ∧ exec i s = .next (s.takeFault f)) := by
  cases i with
  | hlt => exact .inl ⟨_, .hlt⟩
  | ret => exact .inl ⟨_, .ret⟩
  | prn rA =>
    exact exec_oneReg rfl (fun a ha => ⟨_, .prn ha⟩) fun h => by simp only [exec, execPrn, h]; rfl
  | call rA =>
    exact exec_oneReg rfl (fun a ha => ⟨_, .call ha⟩) fun h => by simp only [exec, execCall, h]; rfl
  | pop rA =>
    exact exec_oneReg rfl (fun a ha => ⟨_, .pop ha⟩) fun h => by simp only [exec, execPop, h]; rfl
  | push rA =>
    exact exec_oneReg rfl (fun a ha => ⟨_, .push ha⟩) fun h => by simp only [exec, execPush, h]; rfl
  | jmp rA =>
    exact exec_oneReg rfl (fun a ha => ⟨_, .jmp ha⟩) fun h => by simp only [exec, execJmp, h]; rfl
  | jeq rA =>
    exact exec_oneReg rfl (fun a ha => ⟨_, .jeq ha⟩) fun h => by simp only [exec, execJeq, h]; rfl
  | jne rA =>
    exact exec_oneReg rfl (fun a ha => ⟨_, .jne ha⟩) fun h => by simp only [exec, execJne, h]; rfl
  | inc rA =>
    exact exec_oneReg rfl (fun a ha => ⟨_, .inc ha⟩) fun h => by simp only [exec, execInc, aluOneReg, h]; rfl
  | dec rA =>
    exact exec_oneReg rfl (fun a ha => ⟨_, .dec ha⟩) fun h => by simp only [exec, execDec, aluOneReg, h]; rfl
  | ldi rA _ =>
    exact exec_oneReg rfl (fun a ha => ⟨_, .ldi ha⟩) fun h => by simp only [exec, execLdi, h]; rfl
  | st rA rB =>
    exact exec_twoReg rfl (fun a b ha hb => .inl ⟨_, .st ha hb⟩) fun f h => by
      simp only [exec, execSt, h]; rfl
  | cmp rA rB =>
    exact exec_twoReg rfl (fun a b ha hb => .inl ⟨_, .cmp ha hb⟩) fun f h => by
      simp only [exec, execCmp, h]; rfl
  | add rA rB =>
    exact exec_twoReg rfl (fun a b ha hb => .inl ⟨_, .add ha hb⟩) fun f h => by
      simp only [exec, execAdd, aluTwoReg, h]; rfl
  | sub rA rB =>
    exact exec_twoReg rfl (fun a b ha hb => .inl ⟨_, .sub ha hb⟩) fun f h => by
      simp only [exec, execSub, aluTwoReg, h]; rfl
  | mul rA rB =>
    exact exec_twoReg rfl (fun a b ha hb => .inl ⟨_, .mul ha hb⟩) fun f h => by
      simp only [exec, execMul, aluTwoReg, h]; rfl
  | div rA rB =>
    refine exec_twoReg rfl (fun a b ha hb => ?_) fun f h => by simp only [exec, execDiv, h]; rfl
    by_cases hz : s.reg b = 0#8
    · refine .inr ⟨_, .div ha hb hz, ?_⟩
      simp only [exec, execDiv, regPair_of_eq ha hb, bind, Except.bind, hz, if_true,
        completeTick_error]
    · exact .inl ⟨_, .div ha hb hz⟩

/-- Everything `exec` can do: the effect of the instruction followed by the default advance, or the
fault entry. -/
theorem exec_cases {i : Instr} {s t : State} (h : exec i s = .next t) :
    (∃ u, Effect s i u ∧ t = u.advance i s.pc) ∨ (∃ f, Raises s i f ∧ t = s.takeFault f) := by
  obtain ⟨u, hu⟩ | ⟨f, hr, hf⟩ := exec_total i s
  · exact .inl ⟨u, hu, by simpa [exec_of_effect hu] using h.symm⟩
  · exact .inr ⟨f, hr, by simpa [hf] using h.symm⟩

/-- A running core runs the instruction at pc. -/
theorem step_of_ok {s : State} {i : Instr} (hr : s.run = .running) (hi : fetchInstr s = .ok i) :
    step s = exec i s := by simp only [step, hr, hi]

/-- A running core takes the fault that its fetch or its opcode raised. -/
theorem step_of_error {s : State} {f : Fault} (hr : s.run = .running)
    (hf : fetchInstr s = .error f) : step s = .next (s.takeFault f) := by simp only [step, hr, hf]

/-- Everything `step` can do: nothing in HALTED; in RUNNING the instruction at pc, or the fault entry for
a fetch or an opcode that raised. -/
theorem step_cases {s t : State} (h : step s = .next t) :
    (s.run = .halted ∧ t = s) ∨
    (s.run = .running ∧ ∃ i, fetchInstr s = .ok i ∧ exec i s = .next t) ∨
    (s.run = .running ∧ ∃ f, fetchInstr s = .error f ∧ t = s.takeFault f) := by
  unfold step at h
  split at h
  · next hr => exact .inl ⟨hr, by simpa using h.symm⟩
  · next hr =>
    split at h
    · next f hf => exact .inr (.inr ⟨hr, f, hf, by simpa using h.symm⟩)
    · next i hi => exact .inr (.inl ⟨hr, i, hi, h⟩)

/-- Everything `fetchInstr` can do. -/
theorem fetchInstr_cases (s : State) :
    (253 < s.pc.toNat ∧ fetchInstr s = .error (.outOfBoundsMem (max s.pc.toNat 256))) ∨
    (s.pc.toNat ≤ 253 ∧ ∃ i, fetchInstr s = .ok i) ∨
    (s.pc.toNat ≤ 253 ∧ fetchInstr s = .error (.illegalInstruction (s.mem.read s.pc.toNat))) := by
  rcases Nat.lt_or_ge 253 s.pc.toNat with h | h
  · exact .inl ⟨h, by simp only [fetchInstr, fetch_of_gt h]; rfl⟩
  · refine .inr ?_
    rw [fetchInstr_of_le h]
    split
    · exact .inl ⟨h, _, rfl⟩
    · exact .inr ⟨h, rfl⟩

end Sys2Proof.Machine
end

