-- ==== Sys2Proof/Laws/Host.lean ====
section
/-! SUPPORT. What the host's operations on the core can do (spec/20_memory.md R69,
spec/60_exceptions.md R212, R220). -/

namespace Sys2Proof.Machine

/-- A load touches memory only. -/
theorem State.loadFrom_frame (s : State) (addr : Nat) (bs : List Byte) :
    ∃ m, (s.loadFrom addr bs).1 = { s with mem := m } := by
  induction bs generalizing s addr with
  | nil => exact ⟨s.mem, rfl⟩
  | cons b bs ih =>
    obtain ⟨_, h⟩ | ⟨_, h⟩ := memWrite_cases s addr b.toNat
    · obtain ⟨m, hm⟩ := ih { s with mem := s.mem.write addr (BitVec.ofNat 8 b.toNat) } (addr + 1)
      exact ⟨m, by simpa only [State.loadFrom, h] using hm⟩
    · exact ⟨s.mem, by simp only [State.loadFrom, h]⟩

/-- A load keeps the canonical form of the memory. -/
theorem State.loadFrom_wf {s : State} (addr : Nat) (bs : List Byte) (hw : s.mem.wf = true) :
    (s.loadFrom addr bs).1.mem.wf = true := by
  induction bs generalizing s addr with
  | nil => exact hw
  | cons b bs ih =>
    obtain ⟨ha, h⟩ | ⟨_, h⟩ := memWrite_cases s addr b.toNat
    · simp only [State.loadFrom, h]
      exact ih _ (Memory.wf_write ha hw)
    · simpa [State.loadFrom, h] using hw

/-- The clock driver's start and stop touch `clock_on` only. -/
theorem State.clockStart_frame (s : State) : ∃ c, s.clockStart = { s with clockOn := c } := by
  unfold State.clockStart; split
  · exact ⟨true, rfl⟩
  · exact ⟨s.clockOn, rfl⟩

theorem State.clockStop_frame (s : State) : ∃ c, s.clockStop = { s with clockOn := c } := by
  unfold State.clockStop; split
  · exact ⟨false, rfl⟩
  · exact ⟨s.clockOn, rfl⟩

end Sys2Proof.Machine
end

