-- ==== Sys2Proof/Laws/PerInstr.lean ====
section
/-! SUPPORT. Statements made for each instruction as syntax, one lemma for each constructor.
Family EncodedLength: an instruction's bytes are as many as its opcode's high bits say, and its opcode
does not have both high bits set (spec/30_encoding.md R81, R90, R92). -/

namespace Sys2Proof.Laws.EncodedLength

/-- `encode i` has `LEN(op)` bytes, one to three of them. -/
def Statement (i : Instr) : Prop :=
  (encode i).length = instrLength i.opcode ∧ instrLength i.opcode ≤ 3

/-- From the number of bytes and the opcode. -/
theorem of_opcode {i : Instr} {n : Nat} {op : Byte} (hlen : (encode i).length = n)
    (hop : i.opcode = op) (h : n = instrLength op ∧ instrLength op ≤ 3) : Statement i := by
  subst hop; exact ⟨hlen.trans h.1, h.2⟩

theorem hlt : Statement .hlt := by unfold Statement; decide
theorem ret : Statement .ret := by unfold Statement; decide
theorem prn (rA : Byte) : Statement (.prn rA) :=
  of_opcode (n := 2) (op := 0x43#8) rfl rfl (by decide)
theorem call (rA : Byte) : Statement (.call rA) :=
  of_opcode (n := 2) (op := 0x48#8) rfl rfl (by decide)
theorem pop (rA : Byte) : Statement (.pop rA) :=
  of_opcode (n := 2) (op := 0x4C#8) rfl rfl (by decide)
theorem push (rA : Byte) : Statement (.push rA) :=
  of_opcode (n := 2) (op := 0x4D#8) rfl rfl (by decide)
theorem jmp (rA : Byte) : Statement (.jmp rA) :=
  of_opcode (n := 2) (op := 0x50#8) rfl rfl (by decide)
theorem jeq (rA : Byte) : Statement (.jeq rA) :=
  of_opcode (n := 2) (op := 0x51#8) rfl rfl (by decide)
theorem jne (rA : Byte) : Statement (.jne rA) :=
  of_opcode (n := 2) (op := 0x52#8) rfl rfl (by decide)
theorem inc (rA : Byte) : Statement (.inc rA) :=
  of_opcode (n := 2) (op := 0x78#8) rfl rfl (by decide)
theorem dec (rA : Byte) : Statement (.dec rA) :=
  of_opcode (n := 2) (op := 0x79#8) rfl rfl (by decide)
theorem ldi (rA imm8 : Byte) : Statement (.ldi rA imm8) :=
  of_opcode (n := 3) (op := 0x99#8) rfl rfl (by decide)
theorem st (rA rB : Byte) : Statement (.st rA rB) :=
  of_opcode (n := 3) (op := 0x9A#8) rfl rfl (by decide)
theorem cmp (rA rB : Byte) : Statement (.cmp rA rB) :=
  of_opcode (n := 3) (op := 0xA0#8) rfl rfl (by decide)
theorem add (rA rB : Byte) : Statement (.add rA rB) :=
  of_opcode (n := 3) (op := 0xA8#8) rfl rfl (by decide)
theorem sub (rA rB : Byte) : Statement (.sub rA rB) :=
  of_opcode (n := 3) (op := 0xA9#8) rfl rfl (by decide)
theorem mul (rA rB : Byte) : Statement (.mul rA rB) :=
  of_opcode (n := 3) (op := 0xAA#8) rfl rfl (by decide)
theorem div (rA rB : Byte) : Statement (.div rA rB) :=
  of_opcode (n := 3) (op := 0xAB#8) rfl rfl (by decide)

end Sys2Proof.Laws.EncodedLength
end

