-- ==== Sys2Proof/Tests/Slice0.lean ====
section
/-! SUPPORT. Tests of the model: each instruction's bytes, written out bit by bit from
spec/30_encoding.md R81 to R87; the smoke test of WellFormed; single ticks whose expected values stand in
spec/95_test_vectors.md (the vector's name is in the docstring); the text forms of R99 to R101; and, for
every statement with hypotheses, a witness that meets them. -/

namespace Sys2Proof.Tests

open Sys2Proof Sys2Proof.Machine

/-! ### Helpers -/

/-- The reset state with bytes loaded from address 0. -/
def loaded (bytes : List Byte) : State :=
  { State.reset with mem := State.reset.mem.placeBytes 0 bytes }

/-- The reset state with bytes at an address and pc there. -/
def loadedAt (p : Nat) (bytes : List Byte) : State :=
  { State.reset with mem := State.reset.mem.placeBytes p bytes, pc := BitVec.ofNat 9 p }

/-- `s` with one more byte of memory. -/
def poke (s : State) (a : Nat) (v : Byte) : State := { s with mem := s.mem.write a v }

/-- What a tick that faults leaves (R205). -/
def faultsWith (s : State) (code : FaultCode) (info : BitVec 9) : Option State :=
  some { s with run := .halted, haltCause := .fault, clockOn := false, fault := ⟨code, s.pc, info⟩ }

/-- What the decoder gives for a byte list, and what it leaves. -/
def decoded (bytes : List Byte) : Option (Instr × List Byte) :=
  match decode bytes with
  | .ok r => some r
  | .error _ => none

/-- A session whose host made the given moves. -/
def played : List HostMove → Option Session → Option Session
  | [], x => x
  | mv :: mvs, x => played mvs (x.bind fun y => y.move mv)

/-! ### Decoding: each instruction's bytes from R87 -/

theorem test_decode_hlt : decoded [0b00000001#8, 5#8] = some (.hlt, [5#8]) := by decide
theorem test_decode_ret : decoded [0b00001001#8, 5#8] = some (.ret, [5#8]) := by decide
theorem test_decode_prn : decoded [0b01000011#8, 3#8, 5#8] = some (.prn 3#8, [5#8]) := by decide
theorem test_decode_call : decoded [0b01001000#8, 3#8, 5#8] = some (.call 3#8, [5#8]) := by decide
theorem test_decode_pop : decoded [0b01001100#8, 3#8, 5#8] = some (.pop 3#8, [5#8]) := by decide
theorem test_decode_push : decoded [0b01001101#8, 3#8, 5#8] = some (.push 3#8, [5#8]) := by decide
theorem test_decode_jmp : decoded [0b01010000#8, 3#8, 5#8] = some (.jmp 3#8, [5#8]) := by decide
theorem test_decode_jeq : decoded [0b01010001#8, 3#8, 5#8] = some (.jeq 3#8, [5#8]) := by decide
theorem test_decode_jne : decoded [0b01010010#8, 3#8, 5#8] = some (.jne 3#8, [5#8]) := by decide
theorem test_decode_inc : decoded [0b01111000#8, 3#8, 5#8] = some (.inc 3#8, [5#8]) := by decide
theorem test_decode_dec : decoded [0b01111001#8, 3#8, 5#8] = some (.dec 3#8, [5#8]) := by decide
theorem test_decode_ldi :
    decoded [0b10011001#8, 3#8, 200#8, 5#8] = some (.ldi 3#8 200#8, [5#8]) := by decide
theorem test_decode_st :
    decoded [0b10011010#8, 3#8, 4#8, 5#8] = some (.st 3#8 4#8, [5#8]) := by decide
theorem test_decode_cmp :
    decoded [0b10100000#8, 3#8, 4#8, 5#8] = some (.cmp 3#8 4#8, [5#8]) := by decide
theorem test_decode_add :
    decoded [0b10101000#8, 3#8, 4#8, 5#8] = some (.add 3#8 4#8, [5#8]) := by decide
theorem test_decode_sub :
    decoded [0b10101001#8, 3#8, 4#8, 5#8] = some (.sub 3#8 4#8, [5#8]) := by decide
theorem test_decode_mul :
    decoded [0b10101010#8, 3#8, 4#8, 5#8] = some (.mul 3#8 4#8, [5#8]) := by decide
theorem test_decode_div :
    decoded [0b10101011#8, 3#8, 4#8, 5#8] = some (.div 3#8 4#8, [5#8]) := by decide

/-- R88: a byte between two opcodes, the zero byte and an opcode of length field 11 are rejected. -/
theorem test_decode_illegal :
    decoded [0b00000000#8, 1#8, 2#8] = none ∧ decoded [0b10100001#8, 1#8, 2#8] = none ∧
      decoded [0b11000000#8, 1#8, 2#8, 3#8] = none := by decide

/-- A list that ends inside an instruction gives none. -/
theorem test_decode_truncated : decoded [0b10101000#8, 1#8] = none ∧ decoded [] = none := by decide

/-- A table word numbers its bits from the first byte. -/
theorem test_table_word :
    decodeTableWord 24 0x0403A8 = some (.add 3#8 4#8) ∧ decodeTableWord 8 0xA8 = some (.add 0#8 0#8) ∧
      decodeTableWord 8 0x00 = none := by decide

/-! ### WellFormed: an ill-formed term for each operand of each shape -/

theorem test_wellFormed_accepts :
    (Instr.add 7#8 0#8).wellFormed = true ∧ (Instr.ldi 7#8 255#8).wellFormed = true ∧
      Instr.hlt.wellFormed = true ∧ (Instr.push 7#8).wellFormed = true := by decide

theorem test_wellFormed_refuses_alu :
    (Instr.add 8#8 0#8).wellFormed = false ∧ (Instr.add 0#8 8#8).wellFormed = false ∧
      (Instr.sub 8#8 0#8).wellFormed = false ∧ (Instr.sub 0#8 255#8).wellFormed = false ∧
      (Instr.mul 8#8 0#8).wellFormed = false ∧ (Instr.mul 0#8 8#8).wellFormed = false ∧
      (Instr.div 8#8 0#8).wellFormed = false ∧ (Instr.div 0#8 8#8).wellFormed = false ∧
      (Instr.cmp 8#8 0#8).wellFormed = false ∧ (Instr.cmp 0#8 8#8).wellFormed = false ∧
      (Instr.inc 8#8).wellFormed = false ∧ (Instr.dec 8#8).wellFormed = false := by decide

theorem test_wellFormed_refuses_others :
    (Instr.ldi 8#8 0#8).wellFormed = false ∧ (Instr.st 8#8 0#8).wellFormed = false ∧
      (Instr.st 0#8 9#8).wellFormed = false ∧ (Instr.push 8#8).wellFormed = false ∧
      (Instr.pop 8#8).wellFormed = false ∧ (Instr.call 8#8).wellFormed = false ∧
      (Instr.jmp 8#8).wellFormed = false ∧ (Instr.jeq 8#8).wellFormed = false ∧
      (Instr.jne 255#8).wellFormed = false ∧ (Instr.prn 8#8).wellFormed = false := by decide

/-! ### Single ticks, from the vectors of spec/95_test_vectors.md -/

/-- A1. -/
theorem test_add_wraps :
    (((loaded [0xA8#8, 0#8, 1#8]).setReg 0 200#8).setReg 1 100#8).afterStep.map
      (fun t => (t.reg 0, t.reg 1, t.pc, t.fl)) = some (44#8, 100#8, 3#9, 0#8) := by decide

/-- A4. -/
theorem test_add_checks_opA_first :
    (loaded [0xA8#8, 8#8, 9#8]).afterStep =
      faultsWith (loaded [0xA8#8, 8#8, 9#8]) .outOfBoundsReg 8#9 := by decide

/-- S1. -/
theorem test_sub_borrows :
    (((loaded [0xA9#8, 0#8, 1#8]).setReg 0 3#8).setReg 1 5#8).afterStep.map
      (fun t => (t.reg 0, t.reg 1, t.pc)) = some (254#8, 5#8, 3#9) := by decide

/-- S3. -/
theorem test_sub_same_register :
    ((loaded [0xA9#8, 2#8, 2#8]).setReg 2 77#8).afterStep.map (fun t => t.reg 2) = some 0#8 := by
  decide

/-- M2. -/
theorem test_mul_low_byte :
    (((loaded [0xAA#8, 0#8, 1#8]).setReg 0 20#8).setReg 1 13#8).afterStep.map
      (fun t => (t.reg 0, t.reg 1, t.pc)) = some (4#8, 13#8, 3#9) := by decide

/-- M3. -/
theorem test_mul_largest :
    (((loaded [0xAA#8, 0#8, 1#8]).setReg 0 255#8).setReg 1 255#8).afterStep.map
      (fun t => t.reg 0) = some 1#8 := by decide

/-- D1. -/
theorem test_div_floors :
    (((loaded [0xAB#8, 0#8, 1#8]).setReg 0 200#8).setReg 1 7#8).afterStep.map
      (fun t => (t.reg 0, t.reg 1, t.pc)) = some (28#8, 7#8, 3#9) := by decide

/-- D4, D7 and X7: a zero divisor, and a selector checked before it. -/
theorem test_div_faults :
    ((loaded [0xAB#8, 0#8, 1#8]).setReg 0 9#8).afterStep =
        faultsWith ((loaded [0xAB#8, 0#8, 1#8]).setReg 0 9#8) .divideByZero 1#9 ∧
      ((loaded [0xAB#8, 0#8, 8#8]).setReg 0 5#8).afterStep =
        faultsWith ((loaded [0xAB#8, 0#8, 8#8]).setReg 0 5#8) .outOfBoundsReg 8#9 ∧
      (loaded [0xAB#8, 8#8, 1#8]).afterStep =
        faultsWith (loaded [0xAB#8, 8#8, 1#8]) .outOfBoundsReg 8#9 := by decide

/-- I1. -/
theorem test_inc_wraps :
    ((loaded [0x78#8, 0#8]).setReg 0 255#8).afterStep.map (fun t => (t.reg 0, t.pc)) =
      some (0#8, 2#9) := by decide

/-- I2. -/
theorem test_inc_stack_pointer :
    (loaded [0x78#8, 7#8]).afterStep.map (fun t => t.reg 7) = some 245#8 := by decide

/-- E1. -/
theorem test_dec_wraps :
    (loaded [0x79#8, 0#8]).afterStep.map (fun t => (t.reg 0, t.pc)) = some (255#8, 2#9) := by decide

/-- C1 and C3: greater, and an unsigned less. -/
theorem test_cmp_unsigned :
    (((loaded [0xA0#8, 0#8, 1#8]).setReg 0 10#8).setReg 1 3#8).afterStep.map
        (fun t => (t.fl, t.pc)) = some (0x02#8, 3#9) ∧
      ((loaded [0xA0#8, 0#8, 1#8]).setReg 1 255#8).afterStep.map (fun t => t.fl) =
        some 0x04#8 := by decide

/-- C5. -/
theorem test_cmp_overwrites_fl :
    (((loaded [0xA0#8, 5#8, 5#8]).setReg 5 9#8).setFl 0x04#8).afterStep.map (fun t => t.fl) =
      some 0x01#8 := by decide

/-- T2. -/
theorem test_ldi_moves_stack :
    (loaded [0x99#8, 7#8, 0x10#8]).afterStep.map (fun t => (t.sp, t.pc)) = some (16#8, 3#9) := by
  decide

/-- T4. -/
theorem test_ldi_bad_selector :
    (loaded [0x99#8, 8#8, 1#8]).afterStep =
      faultsWith (loaded [0x99#8, 8#8, 1#8]) .outOfBoundsReg 8#9 := by decide

/-- T5. -/
theorem test_st_address_and_value :
    (((loaded [0x9A#8, 0#8, 1#8]).setReg 0 11#8).setReg 1 1#8).afterStep.map
      (fun t => (t.mem.read 11, t.mem.read 1, t.pc)) = some (1#8, 0#8, 3#9) := by decide

/-- T7: the ST overwrites its own operand byte. -/
theorem test_st_into_itself :
    (((loaded [0x9A#8, 0#8, 1#8]).setReg 0 2#8).setReg 1 7#8).afterStep.map
      (fun t => (t.mem.read 2, t.pc)) = some (7#8, 3#9) := by decide

/-- K2: SP wraps below 0. -/
theorem test_push_wraps :
    (((loaded [0x4D#8, 1#8]).setReg 1 0x5A#8).setSp 0#8).afterStep.map
      (fun t => (t.sp, t.mem.read 255, t.pc)) = some (255#8, 0x5A#8, 2#9) := by decide

/-- K3 and K4: PUSH R7, and no partial update of SP. -/
theorem test_push_r7_and_bad_selector :
    (loaded [0x4D#8, 7#8]).afterStep.map (fun t => (t.sp, t.mem.read 243)) = some (243#8, 243#8) ∧
      (loaded [0x4D#8, 8#8]).afterStep =
        faultsWith (loaded [0x4D#8, 8#8]) .outOfBoundsReg 8#9 := by decide

/-- K7: SP wraps past 255. -/
theorem test_pop_wraps :
    (poke ((loaded [0x4C#8, 0#8]).setSp 255#8) 255 0x33#8).afterStep.map
      (fun t => (t.reg 0, t.sp, t.mem.read 255, t.pc)) = some (0x33#8, 0#8, 0x33#8, 2#9) := by decide

/-- K8: POP R7 loads, then increments. -/
theorem test_pop_r7 :
    (poke ((loaded [0x4C#8, 7#8]).setSp 243#8) 243 0x10#8).afterStep.map (fun t => t.sp) =
      some 0x11#8 := by decide

/-- J1. -/
theorem test_jmp :
    ((loaded [0x50#8, 3#8]).setReg 3 12#8).afterStep.map (fun t => t.pc) = some 12#9 := by decide

/-- J12: a jump to 255 completes and the next tick faults. -/
theorem test_jmp_to_last_byte :
    (((poke (loaded [0x50#8, 0#8]) 255 0x01#8).setReg 0 255#8).afterStep.bind
      fun t => t.afterStep).map (fun t => (t.haltCause, t.fault, t.pc)) =
      some (.fault, ⟨.outOfBoundsMem, 255#9, 256#9⟩, 255#9) := by decide

/-- J2 and J3. -/
theorem test_jeq :
    ((loaded [0x51#8, 2#8]).setReg 2 40#8).afterStep.map (fun t => t.pc) = some 2#9 ∧
      (((loaded [0x51#8, 2#8]).setReg 2 40#8).setFl 0x01#8).afterStep.map (fun t => t.pc) =
        some 40#9 := by decide

/-- J7: the selector is checked although the branch is not taken. -/
theorem test_jeq_bad_selector :
    ((loaded [0x51#8, 8#8]).setFl 0x02#8).afterStep =
      faultsWith ((loaded [0x51#8, 8#8]).setFl 0x02#8) .outOfBoundsReg 8#9 := by decide

/-- J4. -/
theorem test_jne_taken_before_cmp :
    ((loaded [0x52#8, 2#8]).setReg 2 40#8).afterStep.map (fun t => t.pc) = some 40#9 := by decide

/-- J6. -/
theorem test_jne_falls_through :
    (((loadedAt 20 [0x52#8, 3#8]).setReg 3 12#8).setFl 0x01#8).afterStep.map (fun t => t.pc) =
      some 22#9 := by decide

/-- J8. -/
theorem test_call :
    ((loadedAt 9 [0x48#8, 1#8]).setReg 1 16#8).afterStep.map
      (fun t => (t.sp, t.mem.read 243, t.pc)) = some (243#8, 11#8, 16#9) := by decide

/-- J9: the target is read after the decrement. -/
theorem test_call_r7 :
    (loaded [0x48#8, 7#8]).afterStep.map (fun t => (t.sp, t.mem.read 243, t.pc)) =
      some (243#8, 2#8, 243#9) := by decide

/-- J10. -/
theorem test_ret :
    (poke ((loaded [0x09#8]).setSp 243#8) 243 11#8).afterStep.map (fun t => (t.pc, t.sp)) =
      some (11#9, 244#8) := by decide

/-- J11. -/
theorem test_ret_wraps :
    (poke ((loaded [0x09#8]).setSp 255#8) 255 5#8).afterStep.map (fun t => (t.pc, t.sp)) =
      some (5#9, 0#8) := by decide

/-- H1. -/
theorem test_hlt :
    (loadedAt 5 [0x01#8]).afterStep.map (fun t => (t.run, t.haltCause, t.clockOn, t.pc)) =
      some (.halted, .hlt, false, 6#9) := by decide

/-- H2 and H3: the last address at which HLT works. -/
theorem test_hlt_at_end :
    (loadedAt 253 [0x01#8]).afterStep.map (fun t => (t.haltCause, t.pc)) = some (.hlt, 254#9) ∧
      (loadedAt 254 [0x01#8]).afterStep =
        faultsWith (loadedAt 254 [0x01#8]) .outOfBoundsMem 256#9 := by decide

/-- H4. -/
theorem test_prn :
    ((loaded [0x43#8, 0#8]).setReg 0 8#8).afterStep.map (fun t => (t.out, t.pc)) =
      some ([8#8], 2#9) := by decide

/-- H5. -/
theorem test_prn_bad_selector :
    (loaded [0x43#8, 8#8]).afterStep =
      faultsWith (loaded [0x43#8, 8#8]) .outOfBoundsReg 8#9 := by decide

/-- X1 and X2. -/
theorem test_illegal_opcodes :
    State.reset.afterStep = faultsWith State.reset .illegalInstruction 0#9 ∧
      (loaded [0xC0#8]).afterStep = faultsWith (loaded [0xC0#8]) .illegalInstruction 0xC0#9 := by
  decide

/-- X4, X5 and X6: the fetch faults at 254, 255 and 256. -/
theorem test_fetch_faults :
    (loadedAt 254 []).afterStep = faultsWith (loadedAt 254 []) .outOfBoundsMem 256#9 ∧
      (loadedAt 255 []).afterStep = faultsWith (loadedAt 255 []) .outOfBoundsMem 256#9 ∧
      (loadedAt 256 []).afterStep = faultsWith (loadedAt 256 []) .outOfBoundsMem 256#9 := by decide

/-- X8. -/
theorem test_halted_tick_changes_nothing :
    State.afterStep State.reset.haltHlt = some State.reset.haltHlt := by decide

/-! ### Text forms (R99 to R101) -/

/-- Lines of program P3 and of R99. -/
theorem test_assemble :
    assembleLine "LDI R2, 42".toList = some (.ldi 2#8 42#8) ∧
      assembleLine "LDI R0,0xFF".toList = some (.ldi 0#8 255#8) ∧
      assembleLine "MUL R0, R2".toList = some (.mul 0#8 2#8) ∧
      assembleLine "ST R0, R1".toList = some (.st 0#8 1#8) ∧
      assembleLine "RET".toList = some .ret := by decide

/-- No spelling of a selector of 8 or more, of an immediate above 255, or of another mnemonic. -/
theorem test_assemble_refuses :
    assembleLine "INC R8".toList = none ∧ assembleLine "LDI R0, 256".toList = none ∧
      assembleLine "NOP".toList = none := by decide

/-- A line with `;` is refused, which is the model's choice (log 16). -/
theorem test_assemble_refuses_semicolon :
    assembleLine "LDI R0,10; LDI R1,3".toList = none ∧ assembleLine "HLT ; stop".toList = none ∧
      assembleLine "LDI R0, 5;".toList = none := by decide

/-- R101: the first byte of program P1, a comment and a blank line. -/
theorem test_listing :
    listingBytes ["10011001".toList, "comment".toList, [], "00000000".toList] =
      some [0x99#8, 0#8] ∧
      listingBytes ["1001".toList] = none := by decide

/-- The image of program P1. -/
theorem test_program_bytes :
    programBytes [.ldi 0#8 8#8, .prn 0#8, .hlt] = [0x99#8, 0#8, 8#8, 0x43#8, 0#8, 0x01#8] := by
  decide

/-! ### The host's moves (R69, R94, R212) -/

/-- A program is loaded, the clock started and one tick made; then the port is closed. -/
theorem test_session :
    (played [.load [0x78#8, 7#8], .start, .clockTick] (some Session.construct)).map
        (fun x => (x.core.sp, x.core.clockOn, x.ticked)) = some (245#8, true, true) ∧
      played [.step, .load [0x01#8]] (some Session.construct) = none ∧
      played [.clockTick] (some Session.construct) = none := by decide

/-- A host stop clears the clock, and starting a HALTED core does nothing. -/
theorem test_clock :
    State.reset.clockStart.clockStop = State.reset ∧
      State.reset.haltHlt.clockStart = State.reset.haltHlt := by decide

/-! ### Witnesses: what meets the hypotheses of each statement

Where a statement has several clauses, each gets a value at a boundary of its range. -/

/-- The selector byte `b` names register `r`. -/
abbrev Names (b : Byte) (r : RegName) : Prop := b.toNat = r.val

/-- The next state of an outcome. -/
def answer : Host.Outcome State Fault Refusal → Option State
  | .next t => some t
  | .fault _ => none
  | .refused _ => none

/-- Reset with x[0] = 200 and x[1] = 7; x[7] is 244 and the other registers are 0. -/
def w0 : State := (State.reset.setReg 0 200#8).setReg 1 7#8

/-- A session whose core is `s` and whose host has done nothing. -/
def host (s : State) : Session := ⟨s, false, false⟩

theorem witness_AddWritesSumModulo256 :
    (Names 0#8 0 ∧ Names 7#8 7 ∧ (answer (exec (.add 0#8 7#8) w0)).map (fun t => t.reg 0) = some 188#8) ∧
      (8 ≤ (8#8 : Byte).toNat ∧
        answer (exec (.add 8#8 0#8) w0) = some (w0.faulted .outOfBoundsReg 8#9)) ∧
      ((7#8 : Byte).toNat < 8 ∧ 8 ≤ (255#8 : Byte).toNat ∧
        answer (exec (.add 7#8 255#8) w0) = some (w0.faulted .outOfBoundsReg 255#9)) := by decide

theorem witness_SubWritesDifferenceModulo256 :
    (Names 0#8 0 ∧ Names 7#8 7 ∧ (answer (exec (.sub 0#8 7#8) w0)).map (fun t => t.reg 0) = some 212#8) ∧
      (8 ≤ (8#8 : Byte).toNat ∧
        answer (exec (.sub 8#8 0#8) w0) = some (w0.faulted .outOfBoundsReg 8#9)) ∧
      ((7#8 : Byte).toNat < 8 ∧ 8 ≤ (255#8 : Byte).toNat ∧
        answer (exec (.sub 7#8 255#8) w0) = some (w0.faulted .outOfBoundsReg 255#9)) := by decide

theorem witness_MulWritesLowByteOfProduct :
    (Names 0#8 0 ∧ Names 7#8 7 ∧ (answer (exec (.mul 0#8 7#8) w0)).map (fun t => t.reg 0) = some 160#8) ∧
      (8 ≤ (8#8 : Byte).toNat ∧
        answer (exec (.mul 8#8 0#8) w0) = some (w0.faulted .outOfBoundsReg 8#9)) ∧
      ((7#8 : Byte).toNat < 8 ∧ 8 ≤ (255#8 : Byte).toNat ∧
        answer (exec (.mul 7#8 255#8) w0) = some (w0.faulted .outOfBoundsReg 255#9)) := by decide

theorem witness_DivWritesFloorQuotientOrRaises :
    (Names 0#8 0 ∧ Names 7#8 7 ∧ (w0.reg 7).toNat ≠ 0 ∧
        (answer (exec (.div 0#8 7#8) w0)).map (fun t => t.reg 0) = some 0#8) ∧
      (Names 7#8 7 ∧ Names 2#8 2 ∧ (w0.reg 2).toNat = 0 ∧
        answer (exec (.div 7#8 2#8) w0) = some (w0.faulted .divideByZero 2#9)) ∧
      (8 ≤ (8#8 : Byte).toNat ∧
        answer (exec (.div 8#8 0#8) w0) = some (w0.faulted .outOfBoundsReg 8#9)) ∧
      ((7#8 : Byte).toNat < 8 ∧ 8 ≤ (255#8 : Byte).toNat ∧
        answer (exec (.div 7#8 255#8) w0) = some (w0.faulted .outOfBoundsReg 255#9)) := by decide

theorem witness_IncWritesSuccessorModulo256 :
    (Names 7#8 7 ∧ (answer (exec (.inc 7#8) w0)).map (fun t => t.reg 7) = some 245#8) ∧
      (8 ≤ (255#8 : Byte).toNat ∧
        answer (exec (.inc 255#8) w0) = some (w0.faulted .outOfBoundsReg 255#9)) := by decide

theorem witness_DecWritesPredecessorModulo256 :
    (Names 2#8 2 ∧ (answer (exec (.dec 2#8) w0)).map (fun t => t.reg 2) = some 255#8) ∧
      (8 ≤ (255#8 : Byte).toNat ∧
        answer (exec (.dec 255#8) w0) = some (w0.faulted .outOfBoundsReg 255#9)) := by decide

theorem witness_CmpWritesUnsignedComparison :
    (Names 0#8 0 ∧ Names 7#8 7 ∧ (w0.reg 0).toNat < (w0.reg 7).toNat ∧
        (answer (exec (.cmp 0#8 7#8) w0)).map (fun t => t.fl) = some 0x04#8) ∧
      ((w0.reg 0).toNat < (w0.reg 7).toNat ∧
        (answer (exec (.cmp 7#8 0#8) w0)).map (fun t => t.fl) = some 0x02#8) ∧
      ((w0.reg 7).toNat = (w0.reg 7).toNat ∧
        (answer (exec (.cmp 7#8 7#8) w0)).map (fun t => t.fl) = some 0x01#8) ∧
      (8 ≤ (8#8 : Byte).toNat ∧
        answer (exec (.cmp 8#8 0#8) w0) = some (w0.faulted .outOfBoundsReg 8#9)) ∧
      ((7#8 : Byte).toNat < 8 ∧ 8 ≤ (255#8 : Byte).toNat ∧
        answer (exec (.cmp 7#8 255#8) w0) = some (w0.faulted .outOfBoundsReg 255#9)) := by decide

theorem witness_LdiWritesImmediate :
    (Names 7#8 7 ∧ (answer (exec (.ldi 7#8 255#8) w0)).map (fun t => t.reg 7) = some 255#8) ∧
      (8 ≤ (255#8 : Byte).toNat ∧
        answer (exec (.ldi 255#8 9#8) w0) = some (w0.faulted .outOfBoundsReg 255#9)) := by decide

theorem witness_StStoresAtRegisterAddress :
    (Names 0#8 0 ∧ Names 7#8 7 ∧ (answer (exec (.st 0#8 7#8) w0)).map (fun t => t.mem.read 200) = some 244#8) ∧
      (8 ≤ (8#8 : Byte).toNat ∧
        answer (exec (.st 8#8 0#8) w0) = some (w0.faulted .outOfBoundsReg 8#9)) ∧
      ((7#8 : Byte).toNat < 8 ∧ 8 ≤ (255#8 : Byte).toNat ∧
        answer (exec (.st 7#8 255#8) w0) = some (w0.faulted .outOfBoundsReg 255#9)) := by decide

theorem witness_PushDecrementsThenStores :
    ((255#8 : Byte).toNat = (((w0.setSp 0#8).reg 7).toNat + 255) % 256 ∧ Names 7#8 7 ∧
        (answer (exec (.push 7#8) (w0.setSp 0#8))).map (fun t => t.mem.read 255) = some 255#8) ∧
      ((243#8 : Byte).toNat = ((w0.reg 7).toNat + 255) % 256 ∧ Names 0#8 0 ∧
        (answer (exec (.push 0#8) w0)).map (fun t => t.mem.read 243) = some 200#8) ∧
      (8 ≤ (255#8 : Byte).toNat ∧
        answer (exec (.push 255#8) w0) = some (w0.faulted .outOfBoundsReg 255#9)) := by decide

theorem witness_PopLoadsThenIncrements :
    (9#8 = (poke (w0.setSp 255#8) 255 9#8).mem.read ((w0.setSp 255#8).reg 7).toNat ∧ Names 0#8 0 ∧
        (0 : RegName) ≠ 7 ∧
        (answer (exec (.pop 0#8) (poke (w0.setSp 255#8) 255 9#8))).map
          (fun t => (t.reg 0, t.reg 7)) = some (9#8, 0#8)) ∧
      ((7#8 : Byte).toNat = 7 ∧ 0#8 = w0.mem.read (w0.reg 7).toNat ∧
        (answer (exec (.pop 7#8) w0)).map (fun t => t.reg 7) = some 1#8) ∧
      (8 ≤ (255#8 : Byte).toNat ∧
        answer (exec (.pop 255#8) w0) = some (w0.faulted .outOfBoundsReg 255#9)) := by decide

theorem witness_JmpSetsPcToRegister :
    (Names 7#8 7 ∧ (answer (exec (.jmp 7#8) w0)).map (fun t => t.pc) = some 244#9) ∧
      (8 ≤ (255#8 : Byte).toNat ∧
        answer (exec (.jmp 255#8) w0) = some (w0.faulted .outOfBoundsReg 255#9)) := by decide

theorem witness_JeqJumpsOnEqual :
    (Names 7#8 7 ∧ (w0.setFl 0x01#8).fl = 0x01#8 ∧
        (answer (exec (.jeq 7#8) (w0.setFl 0x01#8))).map (fun t => t.pc) = some 244#9) ∧
      (Names 0#8 0 ∧ (w0.setFl 0x04#8).fl ≠ 0x01#8 ∧
        (answer (exec (.jeq 0#8) (w0.setFl 0x04#8))).map (fun t => t.pc) = some 2#9) ∧
      (8 ≤ (255#8 : Byte).toNat ∧
        answer (exec (.jeq 255#8) w0) = some (w0.faulted .outOfBoundsReg 255#9)) := by decide

theorem witness_JneJumpsOnNotEqual :
    (Names 7#8 7 ∧ (w0.setFl 0x02#8).fl ≠ 0x01#8 ∧
        (answer (exec (.jne 7#8) (w0.setFl 0x02#8))).map (fun t => t.pc) = some 244#9) ∧
      (Names 0#8 0 ∧ (w0.setFl 0x01#8).fl = 0x01#8 ∧
        (answer (exec (.jne 0#8) (w0.setFl 0x01#8))).map (fun t => t.pc) = some 2#9) ∧
      (8 ≤ (255#8 : Byte).toNat ∧
        answer (exec (.jne 255#8) w0) = some (w0.faulted .outOfBoundsReg 255#9)) := by decide

theorem witness_CallPushesReturnAddress :
    ((255#8 : Byte).toNat = (((w0.setSp 0#8).reg 7).toNat + 255) % 256 ∧ Names 7#8 7 ∧
        ((w0.setSp 0#8).setPc 253#9).pc.toNat ≤ 253 ∧
        (answer (exec (.call 7#8) ((w0.setSp 0#8).setPc 253#9))).map
          (fun t => (t.mem.read 255, t.pc)) = some (255#8, 255#9)) ∧
      ((243#8 : Byte).toNat = ((w0.reg 7).toNat + 255) % 256 ∧ Names 0#8 0 ∧
        (answer (exec (.call 0#8) w0)).map (fun t => (t.mem.read 243, t.pc)) = some (2#8, 200#9)) ∧
      (8 ≤ (255#8 : Byte).toNat ∧
        answer (exec (.call 255#8) w0) = some (w0.faulted .outOfBoundsReg 255#9)) := by decide

theorem witness_PrnAppendsRegisterByte :
    (Names 7#8 7 ∧ (answer (exec (.prn 7#8) w0)).map (fun t => (t.out, outputEvents w0 t)) =
        some ([244#8], [244#8])) ∧
      (8 ≤ (255#8 : Byte).toNat ∧
        answer (exec (.prn 255#8) w0) = some (w0.faulted .outOfBoundsReg 255#9)) := by decide

theorem witness_RegisterWritingFormsFrame :
    (∃ t, exec (.add 0#8 7#8) w0 = .next t ∧ (7 : RegName).val ≠ (0#8 : Byte).toNat) ∧
      (∃ t, exec (.div 7#8 2#8) w0 = .next t ∧ t.haltCause = .fault) ∧
      ∀ i ∈ ([.sub 7#8 7#8, .mul 0#8 1#8, .div 0#8 1#8, .inc 7#8, .dec 0#8, .ldi 7#8 255#8] :
          List Instr), (answer (exec i w0)).isSome = true :=
  ⟨⟨_, rfl, by decide⟩, ⟨_, rfl, by decide⟩, by decide⟩

theorem witness_RegisterKeepingFormsFrame :
    (∃ t, exec (.cmp 0#8 7#8) w0 = .next t ∧ t.fl ≠ w0.fl) ∧
      (∃ t, exec (.prn 0#8) w0 = .next t ∧ t.out ≠ w0.out) ∧
      ∀ i ∈ ([.jmp 0#8, .jeq 7#8, .jne 7#8, .hlt, .jmp 8#8] : List Instr),
        (answer (exec i w0)).isSome = true :=
  ⟨⟨_, rfl, by decide⟩, ⟨_, rfl, by decide⟩, by decide⟩

theorem witness_StoringFormsFrame :
    (∃ t, exec (.st 0#8 7#8) w0 = .next t ∧ Names 0#8 0 ∧ (w0.reg 0).toNat = 200 ∧
        t.mem.read 200 ≠ w0.mem.read 200 ∧ 201 ≠ 200) ∧
      (∃ t, exec (.push 0#8) w0 = .next t ∧ w0.decSp.sp.toNat = 243 ∧ t.haltCause = .none ∧
        (0 : RegName) ≠ 7) ∧
      (∃ t, exec (.call 0#8) w0 = .next t ∧ w0.decSp.sp.toNat = 243 ∧ t.haltCause = .none) ∧
      (∃ t, exec (.st 8#8 0#8) w0 = .next t ∧ t.haltCause = .fault) :=
  ⟨⟨_, rfl, by decide⟩, ⟨_, rfl, by decide⟩, ⟨_, rfl, by decide⟩, ⟨_, rfl, by decide⟩⟩

theorem witness_StackReadingFormsFrame :
    (∃ t, exec (.pop 0#8) w0 = .next t ∧ (1 : RegName).val ≠ (0#8 : Byte).toNat ∧ (1 : RegName) ≠ 7 ∧
        t.reg 0 ≠ w0.reg 0) ∧
      (∃ t, exec .ret w0 = .next t ∧ t.reg 7 ≠ w0.reg 7) ∧
      (∃ t, exec (.pop 8#8) w0 = .next t ∧ t.haltCause = .fault) :=
  ⟨⟨_, rfl, by decide⟩, ⟨_, rfl, by decide⟩, ⟨_, rfl, by decide⟩⟩

theorem witness_IllegalOpcodesRaise :
    (0x00#8 : Byte) ∉ opcodesOfR87 ∧ (0xFF#8 : Byte) ∉ opcodesOfR87 ∧
      (loadedAt 253 [0xA1#8]).run = .running ∧ (loadedAt 253 [0xA1#8]).pc.toNat ≤ 253 ∧
      (loadedAt 253 [0xA1#8]).mem.read (loadedAt 253 [0xA1#8]).pc.toNat ∉ opcodesOfR87 := by decide

theorem witness_DecodedLengthIsHighBitsPlusOne :
    decode (0x01#8 :: [5#8]) = .ok (.hlt, [5#8]) ∧
      decode (0x79#8 :: [3#8]) = .ok (.dec 3#8, []) ∧
      decode (0xAB#8 :: [3#8, 255#8, 5#8]) = .ok (.div 3#8 255#8, [5#8]) := ⟨rfl, rfl, rfl⟩

theorem witness_DecodeIffEncode :
    decode [0x99#8, 255#8, 255#8, 1#8] = .ok (.ldi 255#8 255#8, [1#8]) ∧
      [0x99#8, 255#8, 255#8, 1#8] = encode (.ldi 255#8 255#8) ++ [1#8] := ⟨rfl, rfl⟩

theorem witness_UnusedOperandBytesAreIgnored :
    (0x09#8 : Byte).toNat / 64 = 0 ∧ (0x3F#8 : Byte).toNat / 64 = 0 ∧ (0x40#8 : Byte).toNat / 64 = 1 ∧
      (0x79#8 : Byte).toNat / 64 = 1 ∧ (loadedAt 254 [0x01#8]).run = .running ∧
      (loadedAt 254 [0x01#8]).pc.toNat = 254 := by decide

theorem witness_StepRunsDecodedInstruction :
    (loadedAt 253 [0x99#8, 7#8, 255#8]).run = .running ∧
      (loadedAt 253 [0x99#8, 7#8, 255#8]).pc.toNat ≤ 253 ∧
      decodeFetched ((loadedAt 253 [0x99#8, 7#8, 255#8]).mem.read 253)
        ((loadedAt 253 [0x99#8, 7#8, 255#8]).mem.read (253 + 1))
        ((loadedAt 253 [0x99#8, 7#8, 255#8]).mem.read (253 + 2)) = .ok (.ldi 7#8 255#8) ∧
      (loadedAt 253 [0x99#8, 7#8, 255#8]).pc.toNat = 253 :=
  ⟨rfl, by decide, rfl, by decide⟩

theorem witness_FetchPastEndFaults :
    (∀ p ∈ [254, 255, 256, 257, 511], (loadedAt p []).run = .running ∧
        253 < (loadedAt p []).pc.toNat) ∧
      (loadedAt 257 []).afterStep = some ((loadedAt 257 []).faulted .outOfBoundsMem 257#9) := by
  decide

theorem witness_TicksTakePlaceOnlyWhenRunning :
    (host State.reset).loadFailed = false ∧ (host State.reset).core.run = .running ∧
      (host State.reset.haltHlt).loadFailed = false ∧ (host State.reset.haltHlt).core.run = .halted ∧
      (host State.reset.clockStart).core.clockOn = true ∧
      ((host State.reset.clockStart).move .clockTick).isSome = true := by decide

theorem witness_NewPcOfEveryInstruction :
    (∃ t, step State.reset.haltHlt = .next t ∧ State.reset.haltHlt.run = .halted) ∧
      (∃ t, step (loadedAt 256 []) = .next t ∧ (loadedAt 256 []).haltCause ≠ .fault ∧
        t.haltCause = .fault) ∧
      (∃ y, (host w0).move .start = some y ∧ HostMove.start ≠ .step ∧ HostMove.start ≠ .clockTick) ∧
      (∃ t, exec .ret (w0.setPc 253#9) = .next t ∧ (w0.setPc 253#9).haltCause ≠ .fault ∧
        (w0.setPc 253#9).pc.toNat ≤ 253 ∧ t.haltCause ≠ .fault) ∧
      (∃ t, exec (.ldi 7#8 1#8) (w0.setPc 253#9) = .next t ∧ t.haltCause ≠ .fault ∧
        t.pc.toNat = 256) ∧
      ∀ i ∈ ([.hlt, .prn 0#8, .inc 0#8, .dec 0#8, .push 7#8, .pop 7#8, .add 0#8 1#8, .sub 0#8 1#8,
          .mul 0#8 1#8, .div 0#8 1#8, .cmp 0#8 1#8, .st 0#8 1#8, .jmp 7#8, .jeq 7#8, .jne 7#8,
          .call 7#8] : List Instr),
        (answer (exec i (w0.setPc 253#9))).map (fun t => decide (t.haltCause ≠ .fault)) = some true :=
  ⟨⟨_, rfl, by decide⟩, ⟨_, rfl, by decide⟩, ⟨_, rfl, by decide⟩, ⟨_, rfl, by decide⟩,
    ⟨_, rfl, by decide⟩, by decide⟩

theorem witness_FlagsWrittenOnlyByCmp :
    (∃ t, exec (.cmp 0#8 7#8) w0 = .next t ∧ t.fl ≠ w0.fl) ∧
      (∃ t, step (loaded [0xA0#8, 0#8, 7#8]) = .next t ∧ t.fl ≠ (loaded [0xA0#8, 0#8, 7#8]).fl) ∧
      (∃ y, (host w0).move .stop = some y ∧ HostMove.stop ≠ .step ∧ HostMove.stop ≠ .clockTick) :=
  ⟨⟨_, rfl, by decide⟩, ⟨_, rfl, by decide⟩, ⟨_, rfl, by decide⟩⟩

theorem witness_OutputGrowsOnlyByPrn :
    ∃ t, step (loaded [0x43#8, 7#8]) = .next t ∧ t.out = [244#8] := ⟨_, rfl, by decide⟩

theorem witness_MemoryChangesOnlyByStores :
    (∃ t, step ((loaded [0x9A#8, 0#8, 7#8]).setReg 0 255#8) = .next t ∧ t.mem.read 255 ≠ 0#8 ∧
        ((loaded [0x9A#8, 0#8, 7#8]).setReg 0 255#8).mem.read 255 = 0#8) ∧
      (∃ t, step (loaded [0x4D#8, 7#8]) = .next t ∧ t.mem.read 243 ≠ 0#8 ∧
        (loaded [0x4D#8, 7#8]).mem.read 243 = 0#8) ∧
      (∃ t, step (loaded [0x48#8, 0#8]) = .next t ∧ t.mem.read 243 ≠ 0#8 ∧
        (loaded [0x48#8, 0#8]).mem.read 243 = 0#8) :=
  ⟨⟨_, rfl, by decide⟩, ⟨_, rfl, by decide⟩, ⟨_, rfl, by decide⟩⟩

theorem witness_HaltedEnteredOnlyByHltOrFault :
    (∃ t, step (loaded [0x01#8]) = .next t ∧ (loaded [0x01#8]).run = .running ∧ t.run = .halted ∧
        t.haltCause = .hlt) ∧
      (∃ t, step State.reset = .next t ∧ t.run = .halted ∧ t.haltCause = .fault) ∧
      (∃ t, step (loaded [0x78#8, 0#8]) = .next t ∧ t.run = .running) ∧
      (∃ y, (host State.reset.haltHlt).move .step = some y ∧
        (host State.reset.haltHlt).core.run = .halted) ∧
      (∃ y, (host State.reset.haltHlt).move .start = some y) :=
  ⟨⟨_, rfl, by decide⟩, ⟨_, rfl, by decide⟩, ⟨_, rfl, by decide⟩, ⟨_, rfl, by decide⟩, ⟨_, rfl⟩⟩

theorem witness_FaultingTickChangesOnlyFaultState :
    ∃ t, step (loaded [0x4D#8, 8#8]) = .next t ∧ (loaded [0x4D#8, 8#8]).haltCause ≠ .fault ∧
      t.haltCause = .fault := ⟨_, rfl, by decide⟩

theorem witness_FaultCodesAndInfo :
    256 < 512 ∧ (Fault.outOfBoundsMem 256).info.toNat = 256 ∧ 511 < 512 ∧
      (Fault.outOfBoundsMem 511).info.toNat = 511 := by decide

theorem witness_FaultPriorityIsComplete :
    (w0.run = .running ∧ w0.haltCause ≠ .fault) ∧
      (loadedAt 254 []).run = .running ∧ 253 < (loadedAt 254 []).pc.toNat ∧
      (loadedAt 253 []).pc.toNat ≤ 253 ∧
      fetchInstr (loadedAt 253 []) = .error (.illegalInstruction 0#8) ∧
      fetchInstr (loaded [0xAB#8, 8#8, 9#8]) = .ok (.div 8#8 9#8) ∧
      (Instr.div 8#8 9#8).selectors.find? (fun b => decide (8 ≤ b.toNat)) = some 8#8 ∧
      (Instr.div 7#8 255#8).selectors.find? (fun b => decide (8 ≤ b.toNat)) = some 255#8 ∧
      fetchInstr (loaded [0xAB#8, 7#8, 0#8]) = .ok (.div 7#8 0#8) ∧
      (Instr.div 7#8 0#8).wellFormed = true ∧ Names 0#8 0 ∧
      (loaded [0xAB#8, 7#8, 0#8]).reg 0 = 0#8 ∧
      fetchInstr (loaded [0xAB#8, 0#8, 7#8]) = .ok (.div 0#8 7#8) ∧
      (Instr.div 0#8 7#8).wellFormed = true ∧ (loaded [0xAB#8, 0#8, 7#8]).reg 7 ≠ 0#8 ∧
      fetchInstr (loaded [0x4D#8, 7#8]) = .ok (.push 7#8) ∧ (Instr.push 7#8).wellFormed = true :=
  ⟨by decide, by decide, by decide, by decide, rfl, rfl, by decide, by decide, rfl, by decide,
    by decide, by decide, rfl, by decide, by decide, rfl, by decide⟩

/-- A state that meets the invariant with pc at the end of memory. -/
theorem loadedAt_inv {p : Nat} (hp : p ≤ 256) : (loadedAt p [0x01#8]).Inv where
  memWf := Memory.wf_placeBytes p _ rfl
  pcBound := by
    show (BitVec.ofNat 9 p).toNat ≤ 256
    rw [BitVec.toNat_ofNat]
    omega
  flLegal := Or.inl rfl
  haltRecord := Or.inl ⟨rfl, rfl, rfl⟩

theorem witness_MemoryFaultOnlyAtEndOfMemory :
    (loadedAt 254 [0x01#8]).Inv ∧ (loadedAt 254 [0x01#8]).run = .running ∧
      (∃ t, step (loadedAt 254 [0x01#8]) = .next t ∧ t.fault.code = .outOfBoundsMem) ∧
      (loadedAt 256 [0x01#8]).Inv ∧
      (∃ t, step (loadedAt 256 [0x01#8]) = .next t ∧ t.fault.code = .outOfBoundsMem) :=
  ⟨loadedAt_inv (by decide), rfl, ⟨_, rfl, by decide⟩, loadedAt_inv (by decide), ⟨_, rfl, by decide⟩⟩

theorem witness_FaultRecordWrittenOnce :
    (∃ t, step State.reset = .next t ∧ t.fault ≠ State.reset.fault) ∧
      (∃ y, (host w0).move (.load [1#8]) = some y ∧ HostMove.load [1#8] ≠ .step ∧
        HostMove.load [1#8] ≠ .clockTick) :=
  ⟨⟨_, rfl, by decide⟩, ⟨_, rfl, by decide⟩⟩

theorem witness_PlacedTableWordRunsNext :
    (w0.setPc 253#9).run = .running ∧ (w0.setPc 253#9).pc.toNat ≤ 253 ∧
      decodeTableWord 24 0x0403A8 = some (.add 3#8 4#8) ∧
      decodeTableWord 8 0x01 = some .hlt ∧ 252 < (w0.setPc 253#9).pc.toNat := by decide

theorem witness_StepKeepsInvariant :
    (loadedAt 253 [0x01#8]).Inv ∧ (∃ t, step (loadedAt 253 [0x01#8]) = .next t ∧ t.haltCause = .hlt) ∧
      (loadedAt 0 [0x01#8]).Inv :=
  ⟨loadedAt_inv (by decide), ⟨_, rfl, by decide⟩, loadedAt_inv (by decide)⟩

theorem witness_ReachableSessionsMeetInvariant :
    ∃ x : Session, x.Reachable ∧ x.core.reg 7 = 245#8 ∧ x.core.clockOn = true ∧ x.ticked = true := by
  obtain ⟨x, hx⟩ : ∃ x, Session.construct.move (.load [0x78#8, 7#8]) = some x := ⟨_, rfl⟩
  obtain ⟨y, hy⟩ : ∃ y, x.move .start = some y := by cases hx; exact ⟨_, rfl⟩
  obtain ⟨z, hz⟩ : ∃ z, y.move .clockTick = some z := by cases hx; cases hy; exact ⟨_, rfl⟩
  refine ⟨z, .move _ (.move _ (.move _ .construct hx) hy) hz, ?_⟩
  cases hx; cases hy; cases hz
  decide

theorem witness_PushThenPopRestores : (0#8 : Byte).toNat < 8 ∧ (7#8 : Byte).toNat < 8 := by decide

theorem witness_CallThenRetReturns :
    (7#8 : Byte).toNat < 8 ∧ (w0.setPc 253#9).pc.toNat ≤ 253 := by decide

theorem witness_ArithmeticRoundTripsRestore :
    (7#8 : Byte).toNat < 8 ∧ (0#8 : Byte).toNat < 8 ∧ (7#8 : Byte) ≠ 0#8 := by decide

/-- The state of vector T7: an ST that overwrites its own second operand byte. -/
def selfStore : State := ((loaded [0x9A#8, 0#8, 1#8]).setReg 0 2#8).setReg 1 7#8

theorem witness_StoreIsSeenByLaterFetches :
    selfStore.run = .running ∧ selfStore.pc.toNat ≤ 253 ∧
      selfStore.mem.read selfStore.pc.toNat = 0x9A#8 ∧
      selfStore.mem.read (selfStore.pc.toNat + 1) = 0#8 ∧
      selfStore.mem.read (selfStore.pc.toNat + 2) = 1#8 ∧ Names 0#8 0 ∧ Names 1#8 1 ∧
      ∃ t, step selfStore = .next t ∧
        (∀ p ∈ [2#9, 1#9, 0#9], (t.setPc p).mem = t.mem ∧ (t.setPc p).pc.toNat ≤ 253) ∧
        (t.setPc 2#9).pc.toNat = (selfStore.reg 0).toNat ∧
        (t.setPc 1#9).pc.toNat + 1 = (selfStore.reg 0).toNat ∧
        (t.setPc 0#9).pc.toNat + 2 = (selfStore.reg 0).toNat :=
  ⟨by decide, by decide, by decide, by decide, by decide, by decide, by decide, _, rfl, by decide⟩

theorem witness_CanonicalMemoriesAgreeWhenReadsAgree :
    Memory.wf [(3, 1#8), (255, 2#8)] = true ∧
      Memory.wf ((Memory.write [] 255 2#8).write 3 1#8) = true ∧
      ∀ q, Memory.read [(3, 1#8), (255, 2#8)] q =
        Memory.read ((Memory.write [] 255 2#8).write 3 1#8) q :=
  ⟨by decide, by decide, fun _ => rfl⟩

theorem witness_ClockDoesNotAffectTicks :
    State.reset.run = .running ∧
      (∃ t, step (loaded [0x01#8]).clockStart = .next t ∧ (loaded [0x01#8]).clockStart.run = .running ∧
        t.run = .halted) ∧
      (∃ t, step (loaded [0x78#8, 0#8]).clockStart = .next t ∧ t.run = .running) ∧
      (host State.reset).core.clockOn = false :=
  ⟨rfl, ⟨_, rfl, by decide⟩, ⟨_, rfl, by decide⟩, rfl⟩

theorem witness_ClockStartStopAreIdempotent :
    State.reset.run = .running ∧ State.reset.haltHlt.run = .halted := by decide

/-- A load of 257 bytes ends in OutOfBounds at 256. -/
theorem load_257_fails : (State.reset.load (List.replicate 257 0#8)).2 = some (.outOfBoundsMem 256) := by
  decide

/-- A load that fails is still a move; it marks the session. -/
theorem load_move {program : List Byte} {f : Fault} (h : (State.reset.load program).2 = some f) :
    ∃ y, (host State.reset).move (.load program) = some y ∧ y.loadFailed = true := by
  rcases e : State.reset.load program with ⟨t, _ | g⟩
  · rw [e] at h; cases h
  · refine ⟨⟨t, false, true⟩, ?_, rfl⟩
    show (match State.reset.load program with
      | (t, none) => some { host State.reset with core := t }
      | (t, some _) => some { host State.reset with core := t, loadFailed := true }) = _
    rw [e]
    rfl

theorem witness_LoadPlacesProgramFromZero :
    ([] : List Byte).length ≤ 256 ∧ (List.replicate 256 0#8 : List Byte).length ≤ 256 ∧
      256 < (List.replicate 257 0#8 : List Byte).length ∧
      ∃ y, (host State.reset).move (.load (List.replicate 257 0#8)) = some y ∧ y.loadFailed = true :=
  ⟨Nat.zero_le _, by rw [List.length_replicate], by rw [List.length_replicate]; decide,
    load_move load_257_fails⟩

theorem witness_HostMovesKeepCoreAndMemoryAfterFirstTick :
    (∃ y, (host w0).move (.load [1#8]) = some y ∧ HostMove.load [1#8] ≠ .step ∧
        HostMove.load [1#8] ≠ .clockTick ∧ y.core.mem ≠ w0.mem) ∧
      (∃ y, Session.move ⟨w0, true, false⟩ .start = some y ∧ HostMove.start ≠ .step ∧
        HostMove.start ≠ .clockTick) :=
  ⟨⟨_, rfl, by decide⟩, ⟨_, rfl, by decide⟩⟩

theorem witness_RunUntilHaltIsRepeatedTicks :
    (∃ t, (loaded [0x01#8]).runUntilHalt 1 = some t) ∧ (loaded [0x01#8]).runUntilHalt 0 = none :=
  ⟨⟨_, rfl⟩, by decide⟩

theorem witness_AssembledLinesAreWellFormed :
    assembleLine "ADD R7, R0".toList = some (.add 7#8 0#8) ∧
      assembleLine "LDI R7, 255".toList = some (.ldi 7#8 255#8) := by decide

end Sys2Proof.Tests
end

section
/-! PROOFS. The frame of the machine's state (spec/10_state.md): what writes pc (R28) and what writes FL
(R34). -/

namespace Sys2Proof.Machine

/-! ### The host's moves outside a tick -/

/-- A move of the host that is no tick touches memory and `clock_on` only (R69, R212, R220). -/
theorem Session.move_frame {x y : Session} {mv : HostMove} (h : x.move mv = some y)
    (hs : mv ≠ .step) (hc : mv ≠ .clockTick) :
    ∃ m c, y.core = { x.core with mem := m, clockOn := c } := by
  unfold Session.move at h
  split at h
  · cases h
  cases mv with
  | load program =>
    obtain ⟨m, hm⟩ := x.core.loadFrom_frame 0 program
    have hcore : y.core = (x.core.load program).1 := by
      dsimp only at h
      split at h
      · cases h
      · split at h
        all_goals next e => cases h; rw [e]
    exact ⟨m, x.core.clockOn, hcore.trans hm⟩
  | start =>
    obtain ⟨c, hstart⟩ := x.core.clockStart_frame
    cases h
    exact ⟨x.core.mem, c, hstart⟩
  | stop =>
    obtain ⟨c, hstop⟩ := x.core.clockStop_frame
    cases h
    exact ⟨x.core.mem, c, hstop⟩
  | clockTick => exact absurd rfl hc
  | step => exact absurd rfl hs

/-! ### Telling a fault entry from an effect -/

/-- An instruction's own rule never records a fault as the cause of halting. -/
theorem Effect.haltCause_ne_fault {s u : State} {i : Instr} (h : Effect s i u)
    (hs : s.haltCause ≠ .fault) : u.haltCause ≠ .fault := by
  cases h with
  | hlt => simp
  | _ => exact hs

/-- An instruction that ends without a fault has taken its effect. -/
theorem exec_effect_of_no_fault {i : Instr} {s t : State} (h : exec i s = .next t)
    (ht : t.haltCause ≠ .fault) : ∃ u, Effect s i u ∧ t = u.advance i s.pc := by
  obtain hu | ⟨f, -, rfl⟩ := exec_cases h
  · exact hu
  · exact absurd (s.takeFault_haltCause f) ht

/-- An instruction that ends in a fault its start did not have leaves pc (R206). -/
theorem exec_pc_of_fault {i : Instr} {s t : State} (h : exec i s = .next t)
    (hs : s.haltCause ≠ .fault) (ht : t.haltCause = .fault) : t.pc = s.pc := by
  obtain ⟨u, hu, rfl⟩ | ⟨f, -, rfl⟩ := exec_cases h
  · exact absurd (by simpa using ht) (hu.haltCause_ne_fault hs)
  · exact s.takeFault_pc f

/-- A tick that does not take place, or that faults, leaves pc (R28, R206). -/
theorem step_pc_of_no_tick_or_fault {s t : State} (h : step s = .next t)
    (hf : s.run = .halted ∨ s.haltCause ≠ .fault ∧ t.haltCause = .fault) : t.pc = s.pc := by
  obtain ⟨-, rfl⟩ | ⟨hr, i, -, hi⟩ | ⟨-, f, -, rfl⟩ := step_cases h
  · rfl
  · obtain hh | ⟨hs, ht⟩ := hf
    · simp [hr] at hh
    · exact exec_pc_of_fault hi hs ht
  · exact s.takeFault_pc f

/-! ### pc as a number -/

/-- A byte used as a target keeps its value (R29). -/
@[simp] theorem targetPc_toNat (v : Byte) : (targetPc v).toNat = v.toNat := by
  have hv := v.isLt
  simp only [targetPc, BitVec.toNat_ofNat]
  omega

/-- Where the three fetched bytes exist, no advance of pc wraps (R26). -/
theorem pc_add_toNat {p : PcWord} {n : Nat} (hp : p.toNat ≤ 253) (hn : n ≤ 3) :
    (p + BitVec.ofNat 9 n).toNat = p.toNat + n := by
  simp only [BitVec.toNat_add, BitVec.toNat_ofNat]
  omega

/-- The conditional jumps fall through to `p + 2` (R162, R163). -/
theorem fallThrough_toNat {s : State} (hp : s.pc.toNat ≤ 253) :
    (fallThrough s).toNat = s.pc.toNat + 2 := pc_add_toNat hp (by decide)

/-! ### The new pc, instruction by instruction (R28) -/

/-- An instruction that ends with a default advance by `n` (R97), and does not fault, moves pc by `n`. -/
theorem exec_pc_of_advance {i : Instr} {s t : State} {n : Nat} (h : exec i s = .next t)
    (ht : t.haltCause ≠ .fault) (hp : s.pc.toNat ≤ 253) (hn : n ≤ 3)
    (hadv : ∀ u : State, u.advance i s.pc = u.setPc (s.pc + BitVec.ofNat 9 n)) :
    t.pc.toNat = s.pc.toNat + n := by
  obtain ⟨u, -, rfl⟩ := exec_effect_of_no_fault h ht
  rw [hadv, State.setPc_pc, pc_add_toNat hp hn]

/-- An effect of an instruction of PCSET is the whole next state. -/
theorem exec_eq_of_setsPc {i : Instr} {s t u : State} (h : exec i s = .next t)
    (hi : i.setsPc = true) (hu : Effect s i u) : t = u := by
  rw [exec_of_effect hu, State.advance_of_setsPc hi] at h
  cases h
  rfl

section
variable {s t : State} {rA : Byte} {a : RegName}

theorem exec_ret_pc (h : exec .ret s = .next t) :
    t.pc.toNat = (s.mem.read (s.reg 7).toNat).toNat := by
  rw [exec_eq_of_setsPc h rfl .ret]
  exact targetPc_toNat _

theorem exec_jmp_pc (ha : rA.toNat = a.val) (h : exec (.jmp rA) s = .next t) :
    t.pc.toNat = (s.reg a).toNat := by
  rw [exec_eq_of_setsPc h rfl (.jmp ha)]
  exact targetPc_toNat _

/-- CALL reads its target after the decrement of SP, so from the registers it leaves (R164). -/
theorem exec_call_pc (ha : rA.toNat = a.val) (h : exec (.call rA) s = .next t) :
    t.pc.toNat = (t.reg a).toNat := by
  rw [exec_eq_of_setsPc h rfl (.call ha)]
  exact targetPc_toNat _

theorem exec_jeq_pc (hp : s.pc.toNat ≤ 253) (ha : rA.toNat = a.val)
    (h : exec (.jeq rA) s = .next t) :
    t.pc.toNat = if s.fl = 0x01#8 then (s.reg a).toNat else s.pc.toNat + 2 := by
  rw [exec_eq_of_setsPc h rfl (.jeq ha)]
  by_cases hfl : s.fl = 0x01#8 <;> simp [State.equalHeld, flagsEqual, hfl, fallThrough_toNat hp]

theorem exec_jne_pc (hp : s.pc.toNat ≤ 253) (ha : rA.toNat = a.val)
    (h : exec (.jne rA) s = .next t) :
    t.pc.toNat = if s.fl ≠ 0x01#8 then (s.reg a).toNat else s.pc.toNat + 2 := by
  rw [exec_eq_of_setsPc h rfl (.jne ha)]
  by_cases hfl : s.fl = 0x01#8 <;> simp [State.equalHeld, flagsEqual, hfl, fallThrough_toNat hp]

end

/-! ### What writes FL (R34) -/

/-- The rule of an instruction that changes FL is that of a CMP. -/
theorem Effect.cmp_of_fl_ne {s u : State} {i : Instr} (h : Effect s i u) (hfl : u.fl ≠ s.fl) :
    ∃ a b, i = .cmp a b := by
  cases h with
  | cmp => exact ⟨_, _, rfl⟩
  | _ => exact absurd rfl hfl

/-- An instruction that changes FL is a CMP. -/
theorem exec_cmp_of_fl_ne {i : Instr} {s t : State} (h : exec i s = .next t) (hfl : t.fl ≠ s.fl) :
    ∃ a b, i = .cmp a b := by
  obtain ⟨u, hu, rfl⟩ | ⟨f, -, rfl⟩ := exec_cases h
  · exact hu.cmp_of_fl_ne (by simpa using hfl)
  · exact absurd (s.takeFault_fl f) hfl

/-- A tick that changes FL has fetched a CMP. -/
theorem step_cmp_of_fl_ne {s t : State} (h : step s = .next t) (hfl : t.fl ≠ s.fl) :
    s.run = .running ∧ ∃ a b, fetchInstr s = .ok (.cmp a b) := by
  obtain ⟨-, rfl⟩ | ⟨hr, i, hfetch, hi⟩ | ⟨-, f, -, rfl⟩ := step_cases h
  · exact absurd rfl hfl
  · obtain ⟨a, b, rfl⟩ := exec_cmp_of_fl_ne hi hfl
    exact ⟨hr, a, b, hfetch⟩
  · exact absurd (s.takeFault_fl f) hfl

/-! ### The obligations -/

/-- Settles O32: a tick that faults or is refused is the starting state but for the fault state, the host's
other moves touch memory and `clock_on` only, and an effect is followed by the default advance, which is none
for an instruction of PCSET. -/
theorem newPcOfEveryInstruction : Obligations.NewPcOfEveryInstruction := by
  refine ⟨fun s t => step_pc_of_no_tick_or_fault, fun x y mv h hs hc => ?_,
    fun s t i _ hp h ht => ⟨?_, ?_, ?_, fun a r ha => ⟨?_, ?_, ?_, ?_⟩, ?_⟩⟩
  · obtain ⟨m, c, hy⟩ := Session.move_frame h hs hc
    rw [hy]
  · rintro rfl
    exact exec_pc_of_advance h ht hp (by decide) fun u => u.advance_hlt _
  · rintro a (rfl | rfl | rfl | rfl | rfl) <;>
      exact exec_pc_of_advance h ht hp (by decide) (by simp)
  · rintro a b (rfl | rfl | rfl | rfl | rfl | rfl | rfl) <;>
      exact exec_pc_of_advance h ht hp (by decide) (by simp)
  · exact fun hi => exec_jmp_pc ha (hi ▸ h)
  · exact fun hi => exec_jeq_pc hp ha (hi ▸ h)
  · exact fun hi => exec_jne_pc hp ha (hi ▸ h)
  · exact fun hi => exec_call_pc ha (hi ▸ h)
  · exact fun hi => exec_ret_pc (hi ▸ h)

/-- Settles O33: CMP's is the only rule that writes FL, a fault entry leaves it, and the host's other moves
touch memory and `clock_on` only. -/
theorem flagsWrittenOnlyByCmp : Obligations.FlagsWrittenOnlyByCmp := by
  refine ⟨fun s t i => exec_cmp_of_fl_ne, fun s t => step_cmp_of_fl_ne, fun x y mv h hs hc => ?_⟩
  obtain ⟨m, c, hy⟩ := Session.move_frame h hs hc
  rw [hy]

end Sys2Proof.Machine
end

section
/-! PROOFS. The encoding (spec/30_encoding.md): the illegal opcode bytes (R88) and the number of bytes the
decoder takes (R81). -/

namespace Sys2Proof.Machine

/-! ### Opcode bytes that are none of the 18 (R88) -/

/-- The decoder rejects an opcode byte that is none of the 18, by its name. -/
theorem decodeFetched_of_not_mem {op : Byte} (opA opB : Byte) (h : op ∉ opcodesOfR87) :
    decodeFetched op opA opB = .error (.illegalOpcode op) := by
  obtain ⟨hmem, -⟩ | ⟨-, herr⟩ := decodeFetched_cases op opA opB
  · exact absurd hmem h
  · exact herr

/-- A fetch of three existing bytes whose first is none of the 18 raises IllegalInstruction. -/
theorem fetchInstr_of_not_mem {s : State} (hp : s.pc.toNat ≤ 253)
    (h : s.mem.read s.pc.toNat ∉ opcodesOfR87) :
    fetchInstr s = .error (.illegalInstruction (s.mem.read s.pc.toNat)) := by
  rw [fetchInstr_of_le hp, decodeFetched_of_not_mem _ _ h]

/-- The fault entry is the state the statements write out field by field (R205, R206). -/
theorem State.takeFault_eq_faulted (s : State) (f : Fault) :
    s.takeFault f = s.faulted f.code f.info := rfl

/-- The numbers of one byte whose byte is in a list without repetition are that list's own bytes, up to
order. -/
theorem filter_range_contains_perm {l : List Byte} (h : l.Nodup) :
    ((List.range 256).filter fun n => l.contains (BitVec.ofNat 8 n)).Perm (l.map BitVec.toNat) := by
  rw [List.perm_ext_iff_of_nodup (List.nodup_range.filter _)
    (h.map fun _ _ => BitVec.eq_of_toNat_eq)]
  intro n
  simp only [List.mem_filter, List.mem_range, List.contains_iff_mem, List.mem_map]
  constructor
  · rintro ⟨hn, hmem⟩
    exact ⟨_, hmem, by simp [Nat.mod_eq_of_lt hn]⟩
  · rintro ⟨b, hb, rfl⟩
    exact ⟨b.isLt, by rwa [BitVec.ofNat_toNat, BitVec.setWidth_eq]⟩

/-- A list without repetition leaves out all other of the 256 byte values. -/
theorem length_filter_range_not_contains {l : List Byte} (h : l.Nodup) :
    ((List.range 256).filter fun n => !l.contains (BitVec.ofNat 8 n)).length = 256 - l.length := by
  have hsum := List.length_eq_length_filter_add (l := List.range 256)
    fun n => l.contains (BitVec.ofNat 8 n)
  rw [List.length_range, (filter_range_contains_perm h).length_eq, List.length_map] at hsum
  exact Nat.eq_sub_of_add_eq' hsum.symm

/-! ### The length field (R81) -/

/-- The two high bits of the opcode, as a quotient. -/
theorem operandCount_eq (op : Byte) : operandCount op = op.toNat / 64 := by
  rw [operandCount, BitVec.toNat_ushiftRight, Nat.shiftRight_eq_div_pow]

/-- When `decode` gives an instruction, and what it leaves of the list: the operand bytes the opcode
announces are there, and exactly they are dropped. -/
theorem decode_cons_eq_ok_iff {op : Byte} {tail rest : List Byte} {i : Instr} :
    decode (op :: tail) = .ok (i, rest) ↔
      decodeFetched op (tail.getD 0 0#8) (tail.getD 1 0#8) = .ok i ∧
        operandCount op ≤ tail.length ∧ rest = tail.drop (operandCount op) := by
  rw [decode]
  cases decodeFetched op (tail.getD 0 0#8) (tail.getD 1 0#8) with
  | error e => simp
  | ok j =>
    rcases Nat.lt_or_ge tail.length (operandCount op) with hshort | hlong
    · simp [hshort]
    · simp [hlong, Nat.not_lt.mpr hlong, eq_comm]

/-! ### The obligations -/

/-- Settles O24: the 18 opcode bytes are distinct, which leaves 256 - 18; the rejection is the decoder's case
for a byte outside the map, and the tick that fetches such a byte takes the fault its fetch raised. -/
theorem illegalOpcodesRaise : Obligations.IllegalOpcodesRaise := by
  refine ⟨length_filter_range_not_contains (by decide), fun op a b => decodeFetched_of_not_mem a b,
    fun s hr hp hop => ?_⟩
  rw [step_of_error hr (fetchInstr_of_not_mem hp hop), State.takeFault_eq_faulted]
  rfl

/-- Settles O25: the bytes taken are the opcode byte and the operand bytes that `decode` drops. -/
theorem decodedLengthIsHighBitsPlusOne : Obligations.DecodedLengthIsHighBitsPlusOne := by
  intro op tail rest i h
  obtain ⟨-, hlen, rfl⟩ := decode_cons_eq_ok_iff.mp h
  refine ⟨op :: tail.take (operandCount op), ?_, ?_⟩
  · rw [List.cons_append, List.take_append_drop]
  · rw [List.length_cons, List.length_take_of_le hlen, operandCount_eq]

end Sys2Proof.Machine
end

section
/-! PROOFS. The arithmetic and the comparison (spec/40_alu.md): ADD, SUB, MUL, INC, DEC and CMP, each with
its bytes, its whole next state and its register faults. -/

namespace Sys2Proof.Machine

/-! ### The bytes of an instruction (R80, R87) -/

/-- The opcode announces as many operand bytes as the encoding has (R81). -/
theorem operandCount_opcode (i : Instr) : operandCount i.opcode = i.operands.length := by
  rw [operandCount_eq]
  cases i with
  | _ => simp [Instr.opcode, Instr.operands]

/-- The opcode and operand bytes of an instruction name it, whatever stands in the unused operands. -/
theorem decodeFetched_encode (i : Instr) (rest : List Byte) :
    decodeFetched i.opcode ((i.operands ++ rest).getD 0 0#8) ((i.operands ++ rest).getD 1 0#8) =
      .ok i := by
  cases i with
  | _ => rfl

/-- The decoder gives back an encoded instruction and leaves what follows it. -/
theorem decode_encode_append (i : Instr) (rest : List Byte) :
    decode (encode i ++ rest) = .ok (i, rest) := by
  rw [encode, List.cons_append, decode_cons_eq_ok_iff, operandCount_opcode]
  exact ⟨decodeFetched_encode i rest, by simp, List.drop_left.symm⟩

/-! ### A selector that names no register (R84, R208) -/

/-- An instruction takes its effect only where all its selectors name registers. -/
theorem Effect.selector_lt {s u : State} {i : Instr} (h : Effect s i u) {sel : Byte}
    (hsel : sel ∈ i.selectors) : sel.toNat < 8 := by
  cases h with
  | hlt | ret => cases hsel
  | st ha hb | cmp ha hb | add ha hb | sub ha hb | mul ha hb | div ha hb =>
    obtain rfl | rfl : _ ∨ _ := by simpa [Instr.selectors] using hsel
    · exact ha ▸ Fin.isLt _
    · exact hb ▸ Fin.isLt _
  | prn ha | call ha | pop ha | push ha | jmp ha | jeq ha | jne ha | inc ha | dec ha | ldi ha =>
    obtain rfl : sel = _ := by simpa [Instr.selectors] using hsel
    exact ha ▸ Fin.isLt _

/-- A zero divisor is raised only where both selectors name registers. -/
theorem Raises.eq_of_find_selector {s : State} {i : Instr} {f : Fault} (h : Raises s i f) {sel : Byte}
    (hsel : i.selectors.find? (fun b => decide (8 ≤ b.toNat)) = some sel) :
    f = .outOfBoundsReg sel := by
  cases h with
  | selector h => rw [Option.some.inj (h.symm.trans hsel)]
  | div ha hb hz => simp [Instr.selectors, ha, hb] at hsel

/-- The first selector that names no register is the fault of the instruction. -/
theorem exec_of_find_selector {s : State} {i : Instr} {sel : Byte}
    (hsel : i.selectors.find? (fun b => decide (8 ≤ b.toNat)) = some sel) :
    exec i s = .next (s.faulted .outOfBoundsReg (sel.setWidth 9)) := by
  obtain ⟨u, hu⟩ | ⟨f, hr, he⟩ := exec_total i s
  · have hlt := hu.selector_lt (List.mem_of_find?_eq_some hsel)
    have hge : 8 ≤ sel.toNat := by simpa using List.find?_some hsel
    exact absurd hlt (Nat.not_lt.mpr hge)
  · rw [he, hr.eq_of_find_selector hsel]
    rfl

/-- opA is checked first. -/
theorem exec_of_bad_opA {s : State} {i : Instr} {rA : Byte} {bs : List Byte}
    (hi : i.selectors = rA :: bs) (ha : 8 ≤ rA.toNat) :
    exec i s = .next (s.faulted .outOfBoundsReg (rA.setWidth 9)) :=
  exec_of_find_selector (by simp [hi, ha])

/-- opB is checked where opA names a register. -/
theorem exec_of_bad_opB {s : State} {i : Instr} {rA rB : Byte} {bs : List Byte}
    (hi : i.selectors = rA :: rB :: bs) (ha : rA.toNat < 8) (hb : 8 ≤ rB.toNat) :
    exec i s = .next (s.faulted .outOfBoundsReg (rB.setWidth 9)) :=
  exec_of_find_selector (by simp [hi, Nat.not_le.mpr ha, hb])

/-! ### Byte arithmetic as numbers reduced modulo 256 (R120) -/

theorem Byte.add_eq_ofNat (x y : Byte) : x + y = BitVec.ofNat 8 ((x.toNat + y.toNat) % 256) :=
  BitVec.eq_of_toNat_eq (by simp)

theorem Byte.sub_eq_ofNat (x y : Byte) : x - y = BitVec.ofNat 8 ((x.toNat + 256 - y.toNat) % 256) := by
  have hy : y.toNat ≤ 256 := y.isLt.le
  rw [Nat.add_sub_assoc hy, Nat.add_comm]
  exact BitVec.eq_of_toNat_eq (by simp)

theorem Byte.mul_eq_ofNat (x y : Byte) : x * y = BitVec.ofNat 8 ((x.toNat * y.toNat) % 256) :=
  BitVec.eq_of_toNat_eq (by simp)

/-! ### The comparison (R127) -/

section
variable {x y : Byte}

theorem compareFlags_of_eq (h : x.toNat = y.toNat) : compareFlags x y = 0x01#8 :=
  if_pos (BitVec.eq_of_toNat_eq h)

theorem compareFlags_of_lt (h : x.toNat < y.toNat) : compareFlags x y = 0x04#8 := by
  have hne : x ≠ y := fun e => h.ne (congrArg BitVec.toNat e)
  rw [compareFlags, if_neg hne, if_pos h, flagsLess]

theorem compareFlags_of_gt (h : y.toNat < x.toNat) : compareFlags x y = 0x02#8 := by
  have hne : x ≠ y := fun e => h.ne' (congrArg BitVec.toNat e)
  rw [compareFlags, if_neg hne, if_neg h.not_gt, flagsGreater]

end

/-- CMP on two registers writes the comparison to FL and advances pc. -/
theorem exec_cmp {s : State} {rA rB : Byte} {a b : RegName} (ha : rA.toNat = a.val)
    (hb : rB.toNat = b.val) :
    exec (.cmp rA rB) s = .next { s with
      fl := compareFlags (s.reg a) (s.reg b)
      pc := s.pc + 3#9 } := by
  rw [exec_of_effect (.cmp ha hb), State.advance_cmp]
  rfl

/-! ### The obligations -/

/-- Settles O7: the next state is that of `exec_cmp`, with FL from the three cases of `compareFlags`. -/
theorem cmpWritesUnsignedComparison : Obligations.CmpWritesUnsignedComparison := by
  refine fun s a b => ⟨decode_encode_append (.cmp a b), fun i j ha hb => ?_, exec_of_bad_opA rfl,
    exec_of_bad_opB rfl⟩
  rw [exec_cmp ha hb]
  refine ⟨fun h => ?_, fun h => ?_, fun h => ?_⟩
  · rw [compareFlags_of_eq h]
  · rw [compareFlags_of_lt h]
  · rw [compareFlags_of_gt h]

/-- Settles O1: the effect of ADD, its sum read as a number modulo 256, before the advance by 3. -/
theorem addWritesSumModulo256 : Obligations.AddWritesSumModulo256 := by
  refine fun s a b => ⟨decode_encode_append (.add a b), fun i j ha hb => ?_, exec_of_bad_opA rfl,
    exec_of_bad_opB rfl⟩
  rw [exec_of_effect (.add ha hb), State.advance_add, Byte.add_eq_ofNat]
  rfl

/-- Settles O2: the effect of SUB, its difference read as a number modulo 256, before the advance by 3. -/
theorem subWritesDifferenceModulo256 : Obligations.SubWritesDifferenceModulo256 := by
  refine fun s a b => ⟨decode_encode_append (.sub a b), fun i j ha hb => ?_, exec_of_bad_opA rfl,
    exec_of_bad_opB rfl⟩
  rw [exec_of_effect (.sub ha hb), State.advance_sub, Byte.sub_eq_ofNat]
  rfl

/-- Settles O3: the effect of MUL, its product read as a number modulo 256, before the advance by 3. -/
theorem mulWritesLowByteOfProduct : Obligations.MulWritesLowByteOfProduct := by
  refine fun s a b => ⟨decode_encode_append (.mul a b), fun i j ha hb => ?_, exec_of_bad_opA rfl,
    exec_of_bad_opB rfl⟩
  rw [exec_of_effect (.mul ha hb), State.advance_mul, Byte.mul_eq_ofNat]
  rfl

/-- Settles O5: the effect of INC is an addition of 1, before the advance by 2. -/
theorem incWritesSuccessorModulo256 : Obligations.IncWritesSuccessorModulo256 := by
  refine fun s a => ⟨decode_encode_append (.inc a), fun i ha => ?_, exec_of_bad_opA rfl⟩
  have hsucc : s.reg i + 1#8 = BitVec.ofNat 8 (((s.reg i).toNat + 1) % 256) := Byte.add_eq_ofNat _ _
  rw [exec_of_effect (.inc ha), State.advance_inc, hsucc]
  rfl

/-- Settles O6: the effect of DEC is an addition of 255, before the advance by 2. -/
theorem decWritesPredecessorModulo256 : Obligations.DecWritesPredecessorModulo256 := by
  refine fun s a => ⟨decode_encode_append (.dec a), fun i ha => ?_, exec_of_bad_opA rfl⟩
  have hpred : s.reg i + 255#8 = BitVec.ofNat 8 (((s.reg i).toNat + 255) % 256) :=
    Byte.add_eq_ofNat _ _
  rw [exec_of_effect (.dec ha), State.advance_dec, hpred]
  rfl

end Sys2Proof.Machine
end

section
/-! PROOFS. The data movement (spec/41_data.md): LDI and ST, each with its bytes, its whole next state and its
register faults. -/

namespace Sys2Proof.Machine

/-! ### The next state where the selectors name registers -/

section
variable {s : State} {rA rB v : Byte} {a b : RegName}

/-- LDI writes its immediate byte to the register and advances pc (R140). -/
theorem exec_ldi (ha : rA.toNat = a.val) :
    exec (.ldi rA v) s = .next { s with regs := s.regs.set a.val v, pc := s.pc + 3#9 } := by
  rw [exec_of_effect (.ldi ha), State.advance_ldi]
  rfl

/-- ST writes one byte of memory and advances pc: every byte is an address that exists (R141). -/
theorem exec_st (ha : rA.toNat = a.val) (hb : rB.toNat = b.val) :
    exec (.st rA rB) s = .next { s with
      mem := s.mem.write (s.reg a).toNat (s.reg b)
      pc := s.pc + 3#9 } := by
  rw [exec_of_effect (.st ha hb), State.advance_st]
  rfl

end

/-! ### The obligations -/

/-- Settles O8: the next state is that of `exec_ldi`, and opA is LDI's only selector. -/
theorem ldiWritesImmediate : Obligations.LdiWritesImmediate :=
  fun _ a v => ⟨decode_encode_append (.ldi a v), fun _ => exec_ldi, exec_of_bad_opA rfl⟩

/-- Settles O9: the next state is that of `exec_st`, and a read of the memory written is `Memory.read_write`. -/
theorem stStoresAtRegisterAddress : Obligations.StStoresAtRegisterAddress :=
  fun _ a b => ⟨decode_encode_append (.st a b),
    fun _ _ ha hb => ⟨_, exec_st ha hb, fun q => Memory.read_write _ _ q _, rfl⟩,
    exec_of_bad_opA rfl, exec_of_bad_opB rfl⟩

end Sys2Proof.Machine
end

section
/-! PROOFS. The stack (spec/42_stack.md): PUSH and POP, each with its bytes, its whole next state and its
register fault. The two statements of each rule take effect in order (R14), which decides the forms that name
R7. -/

namespace Sys2Proof.Machine

/-! ### The stack pointer as a register (R22, R61, R62) -/

/-- A register read after the decrement: R7 is the stack pointer already decremented (R151). -/
theorem State.reg_decSp (s : State) (q : RegName) :
    s.decSp.reg q = if q = 7 then s.decSp.sp else s.reg q := by
  rw [State.sp_decSp]
  exact s.reg_setReg q 7 _

/-- The decremented stack pointer, as a number modulo 256 (R61). -/
theorem State.decSp_sp_toNat (s : State) : s.decSp.sp.toNat = ((s.reg 7).toNat + 255) % 256 := by
  rw [State.sp_decSp, BitVec.toNat_sub, Nat.add_comm]
  rfl

/-- The increment, as a number modulo 256 (R62). -/
theorem State.incSp_eq_setSp (s : State) :
    s.incSp = s.setSp (BitVec.ofNat 8 ((s.sp.toNat + 1) % 256)) :=
  congrArg s.setSp (Byte.add_eq_ofNat s.sp 1#8)

/-- Writing a register other than R7 leaves the stack pointer. -/
theorem State.sp_setReg_ne (s : State) {a : RegName} (v : Byte) (h : a ≠ 7) :
    (s.setReg a v).sp = s.reg 7 :=
  s.reg_setReg_ne v h.symm

/-! ### The next state where the selector names a register -/

section
variable {s : State} {rA : Byte} {a : RegName}

/-- PUSH writes R7 and the byte at the new stack pointer, and advances pc (R151). -/
theorem exec_push (ha : rA.toNat = a.val) :
    exec (.push rA) s = .next { s with
      regs := s.regs.set 7 s.decSp.sp
      mem := s.mem.write s.decSp.sp.toNat (s.decSp.reg a)
      pc := s.pc + 2#9 } := by
  rw [exec_of_effect (.push ha), State.advance_push, State.sp_decSp]
  rfl

/-- POP writes the register, then R7 as it reads after that write, and advances pc (R152). -/
theorem exec_pop (ha : rA.toNat = a.val) :
    exec (.pop rA) s = .next { s with
      regs := (s.regs.set a.val (s.mem.read s.sp.toNat)).set 7
        (BitVec.ofNat 8 (((s.setReg a (s.mem.read s.sp.toNat)).sp.toNat + 1) % 256))
      pc := s.pc + 2#9 } := by
  rw [exec_of_effect (.pop ha), State.advance_pop, State.incSp_eq_setSp]
  rfl

end

/-! ### The obligations -/

/-- Settles O10: the next state is that of `exec_push`; a read of the memory written is `Memory.read_write`, and
the byte stored is `State.reg_decSp`, which tells R7 from the other registers. -/
theorem pushDecrementsThenStores : Obligations.PushDecrementsThenStores := by
  intro s a sp hsp
  obtain rfl : sp = s.decSp.sp := BitVec.eq_of_toNat_eq (hsp.trans s.decSp_sp_toNat.symm)
  refine ⟨decode_encode_append (.push a), fun i ha => ⟨_, exec_push ha, fun q => ?_, rfl⟩,
    exec_of_bad_opA rfl⟩
  rw [Memory.read_write, State.reg_decSp]

/-- Settles O11: the next state is that of `exec_pop`; the stack pointer it increments is the old one, except in
POP R7, where it is the byte loaded and the increment overwrites the load. -/
theorem popLoadsThenIncrements : Obligations.PopLoadsThenIncrements := by
  rintro s a v rfl
  refine ⟨decode_encode_append (.pop a), fun i ha hi => ?_, fun ha => ?_, exec_of_bad_opA rfl⟩
  · rw [exec_pop ha, State.sp_setReg_ne s _ hi]
    rfl
  · have hsp (v : Byte) : (s.setReg 7 v).sp = v := s.sp_setSp v
    have hregs (v w : Byte) : (s.regs.set (7 : RegName).val v).set 7 w = s.regs.set 7 w :=
      Vector.set_set ..
    rw [exec_pop (a := 7) ha, hsp, hregs]
    rfl

end Sys2Proof.Machine
end

section
/-! PROOFS. The control transfer (spec/43_control.md): JMP, JEQ, JNE and RET, each with its bytes, its whole
next state and, where it names a register, its register fault. All are in PCSET, so no default advance follows
their effect (R93). -/

namespace Sys2Proof.Machine

/-- The test of the conditional jumps compares all of FL with 0x01 (R162, R163). -/
@[simp] theorem State.equalHeld_iff (s : State) : s.equalHeld = true ↔ s.fl = 0x01#8 :=
  decide_eq_true_iff

/-- The next state after an effect of an instruction of PCSET is what that effect leaves. -/
theorem exec_of_setsPc {i : Instr} {s u : State} (hi : i.setsPc = true) (hu : Effect s i u) :
    exec i s = .next u := by
  rw [exec_of_effect hu, State.advance_of_setsPc hi]

/-! ### The next state where the selector names a register -/

section
variable {s : State} {rA : Byte} {a : RegName}

/-- JEQ moves pc only: to the register's value where FL is 0x01, past its two bytes elsewhere (R162). -/
theorem exec_jeq (ha : rA.toNat = a.val) :
    exec (.jeq rA) s =
      .next (s.setPc (if s.fl = 0x01#8 then targetPc (s.reg a) else fallThrough s)) := by
  rw [exec_of_setsPc rfl (.jeq ha)]
  simp only [State.equalHeld_iff]

/-- JNE moves pc only: past its two bytes where FL is 0x01, to the register's value elsewhere (R163). -/
theorem exec_jne (ha : rA.toNat = a.val) :
    exec (.jne rA) s =
      .next (s.setPc (if s.fl = 0x01#8 then fallThrough s else targetPc (s.reg a))) := by
  rw [exec_of_setsPc rfl (.jne ha)]
  simp only [State.equalHeld_iff]

end

/-! ### The obligations -/

/-- Settles O13: the two cases of `exec_jeq`; the selector's fault does not look at FL. -/
theorem jeqJumpsOnEqual : Obligations.JeqJumpsOnEqual := by
  refine fun s a => ⟨decode_encode_append (.jeq a), fun i ha => ?_, exec_of_bad_opA rfl⟩
  rw [exec_jeq ha]
  refine ⟨fun hfl => ?_, fun hfl => ?_⟩
  · rw [if_pos hfl]
    rfl
  · rw [if_neg hfl]
    rfl

/-- Settles O14: the two cases of `exec_jne`; the selector's fault does not look at FL. -/
theorem jneJumpsOnNotEqual : Obligations.JneJumpsOnNotEqual := by
  refine fun s a => ⟨decode_encode_append (.jne a), fun i ha => ?_, exec_of_bad_opA rfl⟩
  rw [exec_jne ha]
  refine ⟨fun hfl => ?_, fun hfl => ?_⟩
  · rw [if_neg hfl]
    rfl
  · rw [if_pos hfl]
    rfl

/-- Settles O12: the effect of JMP is the whole next state. -/
theorem jmpSetsPcToRegister : Obligations.JmpSetsPcToRegister :=
  fun _ a => ⟨decode_encode_append (.jmp a), fun _ ha => exec_of_setsPc rfl (.jmp ha),
    exec_of_bad_opA rfl⟩

/-- Settles O16: the effect of RET, its increment read as a number modulo 256, is the whole next state; it
reads pc at the old SP. -/
theorem retPopsPc : Obligations.RetPopsPc := by
  refine fun s => ⟨decode_encode_append .ret, ?_⟩
  rw [exec_of_setsPc rfl .ret, State.incSp_eq_setSp]
  rfl

end Sys2Proof.Machine
end

section
/-! PROOFS. The system instructions (spec/44_system.md): HLT and PRN, each with its bytes and its whole next
state; that no tick follows a HLT (R94), and the output event and the register fault of a PRN. -/

namespace Sys2Proof.Machine

/-! ### What the two rules rest on -/

/-- In HALTED no tick takes place (R94). -/
theorem step_of_halted {s : State} (hr : s.run = .halted) : step s = .next s := by
  simp only [step, hr]

/-- What is appended to the output log is what a reader of it sees as new (R215). -/
theorem outputEvents_of_append {s t : State} {vs : List Byte} (h : t.out = s.out ++ vs) :
    outputEvents s t = vs := by
  rw [outputEvents, h, List.drop_left]

/-! ### The next states -/

/-- HLT halts and advances pc (R180). -/
theorem exec_hlt (s : State) :
    exec .hlt s = .next { s with
      run := .halted
      haltCause := .hlt
      clockOn := false
      pc := s.pc + 1#9 } := by
  rw [exec_of_effect .hlt, State.advance_hlt]
  rfl

/-- PRN appends the register's byte to the output log and advances pc (R181). -/
theorem exec_prn {s : State} {rA : Byte} {a : RegName} (ha : rA.toNat = a.val) :
    exec (.prn rA) s = .next { s with out := s.out ++ [s.reg a], pc := s.pc + 2#9 } := by
  rw [exec_of_effect (.prn ha), State.advance_prn]
  rfl

/-! ### The obligations -/

/-- Settles O17: the next state is that of `exec_hlt`, which is HALTED, so a further request changes nothing. -/
theorem hltHaltsCore : Obligations.HltHaltsCore :=
  fun s => ⟨decode_encode_append .hlt, _, exec_hlt s, rfl, step_of_halted rfl⟩

/-- Settles O18: the next state is that of `exec_prn`, whose log has gained the one byte. -/
theorem prnAppendsRegisterByte : Obligations.PrnAppendsRegisterByte := by
  refine fun s a => ⟨decode_encode_append (.prn a), fun i ha => ⟨exec_prn ha, fun t ht => ?_⟩,
    exec_of_bad_opA rfl⟩
  rw [exec_prn ha] at ht
  cases ht
  exact outputEvents_of_append rfl

end Sys2Proof.Machine
end

section
/-! PROOFS. The fault entry (spec/60_exceptions.md section 1): what a tick that faults leaves of its
starting state (R205). -/

namespace Sys2Proof.Machine

/-! ### The fault entry -/

/-- Every fault records a cause code (R200). -/
theorem Fault.code_ne_none (f : Fault) : f.code ≠ .none := by
  cases f <;> exact FaultCode.noConfusion

/-- An instruction that ends in a fault its start did not have has done the fault entry only. -/
theorem exec_takeFault_of_fault {i : Instr} {s t : State} (h : exec i s = .next t)
    (hs : s.haltCause ≠ .fault) (ht : t.haltCause = .fault) : ∃ f, t = s.takeFault f := by
  obtain ⟨u, hu, rfl⟩ | ⟨f, -, rfl⟩ := exec_cases h
  · exact absurd (by simpa using ht) (hu.haltCause_ne_fault hs)
  · exact ⟨f, rfl⟩

/-- A tick that ends in a fault its start did not have has done the fault entry only, whether the fetch
or the instruction raised (R205). -/
theorem step_takeFault_of_fault {s t : State} (h : step s = .next t)
    (hs : s.haltCause ≠ .fault) (ht : t.haltCause = .fault) : ∃ f, t = s.takeFault f := by
  obtain ⟨-, rfl⟩ | ⟨-, i, -, hi⟩ | ⟨-, f, -, rfl⟩ := step_cases h
  · exact absurd ht hs
  · exact exec_takeFault_of_fault hi hs ht
  · exact ⟨f, rfl⟩

/-! ### The obligation -/

/-- Settles O37: a tick that faults is the fault entry from its starting state, which sets the fault state
and keeps every other field. -/
theorem faultingTickChangesOnlyFaultState : Obligations.FaultingTickChangesOnlyFaultState := by
  refine ⟨State.takeFault_eq_faulted, fun s t hs h ht => ?_⟩
  obtain ⟨f, rfl⟩ := step_takeFault_of_fault h hs ht
  exact ⟨f, s.takeFault_eq_faulted f, f.code_ne_none⟩

end Sys2Proof.Machine
end

section
/-! PROOFS. The encoding (spec/30_encoding.md): decoding and encoding agree in both directions (R80 to R87), and
an operand byte that the opcode does not announce is not looked at (R86). -/

namespace Sys2Proof.Machine

/-! ### What a decoded instruction says of its bytes -/

/-- The decoded instruction's opcode byte is the one it was decoded from. -/
theorem opcode_of_decodeFetched {op opA opB : Byte} {i : Instr}
    (h : decodeFetched op opA opB = .ok i) : i.opcode = op := by
  obtain ⟨-, j, hj, hop⟩ | ⟨-, herr⟩ := decodeFetched_cases op opA opB
  · rw [hj] at h
    cases h
    exact hop
  · rw [herr] at h
    cases h

/-- The decoded instruction's operands are as many of the two operand bytes as the opcode announces. -/
theorem operands_of_decodeFetched {op opA opB : Byte} {i : Instr}
    (h : decodeFetched op opA opB = .ok i) : i.operands = [opA, opB].take (operandCount op) := by
  obtain rfl := opcode_of_decodeFetched h
  rw [operandCount_opcode]
  cases i with
  | _ => cases h; rfl

/-- The first operand bytes of a list, read one by one as the decoder does. -/
theorem take_getD_pair {l : List Byte} {n : Nat} (h2 : n ≤ 2) (hl : n ≤ l.length) :
    [l.getD 0 0#8, l.getD 1 0#8].take n = l.take n := by
  match n, l with
  | 0, _ => rfl
  | 1, _ :: _ => rfl
  | 2, _ :: _ :: _ => rfl

/-- No instruction has more than two operand bytes (R82). -/
theorem operands_length_le (i : Instr) : i.operands.length ≤ 2 := by
  cases i with
  | _ => simp [Instr.operands]

/-- A list that decodes to an instruction is that instruction's bytes and what the decoder leaves. -/
theorem eq_encode_append_of_decode {bytes rest : List Byte} {i : Instr}
    (h : decode bytes = .ok (i, rest)) : bytes = encode i ++ rest := by
  cases bytes with
  | nil => cases h
  | cons op tail =>
    obtain ⟨hdec, hlen, rfl⟩ := decode_cons_eq_ok_iff.mp h
    have hops := operands_of_decodeFetched hdec
    obtain rfl := opcode_of_decodeFetched hdec
    have htwo : operandCount i.opcode ≤ 2 := operandCount_opcode i ▸ operands_length_le i
    rw [encode, hops, take_getD_pair htwo hlen, List.cons_append, List.take_append_drop]

/-- The bytes of an instruction name it. -/
theorem encode_injective : Function.Injective encode := by
  intro i j h
  have hi := decode_encode_append i []
  rw [h, decode_encode_append] at hi
  cases hi
  rfl

/-- Operand bytes that differ only beyond the announced ones give the same answer (R86). -/
theorem decodeFetched_eq_of_take_eq {op a b c d : Byte}
    (h : [a, b].take (operandCount op) = [c, d].take (operandCount op)) :
    decodeFetched op a b = decodeFetched op c d := by
  obtain ⟨hmem, i, hi, hiop⟩ | ⟨hnot, -⟩ := decodeFetched_cases op a b
  · obtain ⟨-, j, hj, hjop⟩ | ⟨hnot, -⟩ := decodeFetched_cases op c d
    · have hops : i.operands = j.operands := by
        rw [operands_of_decodeFetched hi, operands_of_decodeFetched hj, h]
      rw [hi, hj, encode_injective (congrArg₂ List.cons (hiop.trans hjop.symm) hops)]
    · exact absurd hmem hnot
  · rw [decodeFetched_of_not_mem a b hnot, decodeFetched_of_not_mem c d hnot]

/-! ### The obligations -/

/-- Settles O26: from a list that decodes, its opcode and the operands taken off it are the instruction's own;
the other direction is that of an encoded instruction with anything behind it. -/
theorem decodeIffEncode : Obligations.DecodeIffEncode := by
  refine fun bytes rest i => ⟨eq_encode_append_of_decode, ?_⟩
  rintro rfl
  exact decode_encode_append i rest

/-- Settles O23: each opcode byte is a case of the decoder's map, which looks at no operand byte. -/
theorem opcodeBytesDecode : Obligations.OpcodeBytesDecode :=
  fun _ _ => ⟨rfl, rfl, rfl, rfl, rfl, rfl, rfl, rfl, rfl, rfl, rfl, rfl, rfl, rfl, rfl, rfl, rfl, rfl⟩

end Sys2Proof.Machine
end

section
/-! PROOFS. The tick (spec/30_encoding.md section 4): what a RUNNING core runs, the fetch past the last byte
(R96), and that every request is answered by a next state. -/

namespace Sys2Proof.Machine

/-! ### Ticks -/

/-- Where the three fetched bytes exist and decode, the fetched instruction is the decoded one. -/
theorem fetchInstr_of_decode {s : State} {i : Instr} (hp : s.pc.toNat ≤ 253)
    (h : decodeFetched (s.mem.read s.pc.toNat) (s.mem.read (s.pc.toNat + 1))
      (s.mem.read (s.pc.toNat + 2)) = .ok i) : fetchInstr s = .ok i := by
  rw [fetchInstr_of_le hp, h]

/-- A fetch past the last byte is a fault, whatever the opcode (R96, R201). -/
theorem step_of_pc_gt {s : State} (hr : s.run = .running) (hp : 253 < s.pc.toNat) :
    step s = .next (s.faulted .outOfBoundsMem (BitVec.ofNat 9 (max s.pc.toNat 256))) := by
  obtain ⟨-, hf⟩ | ⟨hle, -⟩ | ⟨hle, -⟩ := fetchInstr_cases s
  · rw [step_of_error hr hf]
    rfl
  · exact absurd hp hle.not_gt
  · exact absurd hp hle.not_gt

/-- An instruction always answers a next state. -/
theorem exec_next (i : Instr) (s : State) : ∃ t, exec i s = .next t := by
  obtain ⟨u, hu⟩ | ⟨f, -, hf⟩ := exec_total i s
  · exact ⟨_, exec_of_effect hu⟩
  · exact ⟨_, hf⟩

/-- A request always answers a next state. -/
theorem step_next (s : State) : ∃ t, step s = .next t := by
  cases hr : s.run with
  | halted => exact ⟨s, step_of_halted hr⟩
  | running =>
    cases hf : fetchInstr s with
    | error f => exact ⟨_, step_of_error hr hf⟩
    | ok i => exact step_of_ok hr hf ▸ exec_next i s

/-! ### The obligations -/

/-- Settles O28: the fetch reads the three bytes at pc. -/
theorem stepRunsDecodedInstruction : Obligations.StepRunsDecodedInstruction :=
  fun _ _ hr hp h => step_of_ok hr (fetchInstr_of_decode hp h)

/-- Settles O29: the fetch raises before any opcode is looked at. -/
theorem fetchPastEndFaults : Obligations.FetchPastEndFaults :=
  fun _ => step_of_pc_gt

/-- Settles O27: an opcode of length field 0 announces no operand byte and one of length field 1 the first
only; the fetch at 254 raises all the same. -/
theorem unusedOperandBytesAreIgnored : Obligations.UnusedOperandBytesAreIgnored := by
  refine ⟨fun op a b c d h => ?_, fun op a b d h => ?_, fun s hr hp => ?_⟩
  · exact decodeFetched_eq_of_take_eq (by rw [operandCount_eq, h]; rfl)
  · exact decodeFetched_eq_of_take_eq (by rw [operandCount_eq, h]; rfl)
  · rw [step_of_pc_gt hr (by omega), hp]
    rfl

/-- Settles O31: HALTED answers the same state, a raise the fault entry, an instruction its next state. -/
theorem stepAlwaysAnswersNext : Obligations.StepAlwaysAnswersNext :=
  step_next

end Sys2Proof.Machine
end

section
/-! PROOFS. The invariant of every point of a run (spec/10_state.md sections 3 to 5): it holds at reset, and every
tick keeps it. -/

namespace Sys2Proof.Machine

/-! ### The run state, the halt cause, the clock and the fault record -/

/-- `t` has the run state, the halt cause, the clock and the fault record of `s`. -/
def State.SameRunState (s t : State) : Prop :=
  t.run = s.run ∧ t.haltCause = s.haltCause ∧ t.clockOn = s.clockOn ∧ t.fault = s.fault

/-- The default advance touches pc only. -/
theorem State.SameRunState.advance {s u : State} (h : s.SameRunState u) (i : Instr) (p : PcWord) :
    s.SameRunState (u.advance i p) := by
  simpa [State.SameRunState] using h

/-- No rule but that of HLT touches the run state, the halt cause, the clock or the fault record. -/
theorem Effect.hlt_or_sameRunState {s u : State} {i : Instr} (h : Effect s i u) :
    (i = .hlt ∧ u = s.haltHlt) ∨ s.SameRunState u := by
  cases h with
  | hlt => exact .inl ⟨rfl, rfl⟩
  | _ => exact .inr ⟨rfl, rfl, rfl, rfl⟩

/-! ### pc (R28, R29) -/

/-- A byte used as a target is an address that exists. -/
theorem targetPc_le (v : Byte) : (targetPc v).toNat ≤ 256 := by
  rw [targetPc_toNat]
  exact v.isLt.le

/-- An advance by at most three bytes from where they all exist stays inside the memory or just behind it. -/
theorem pc_add_le {p : PcWord} {n : Nat} (hp : p.toNat ≤ 253) (hn : n ≤ 3) :
    (p + BitVec.ofNat 9 n).toNat ≤ 256 := by
  rw [pc_add_toNat hp hn]
  omega

/-- The rule of an instruction of PCSET leaves pc at most at the end of memory. -/
theorem Effect.pc_le_of_setsPc {s u : State} {i : Instr} (h : Effect s i u) (hi : i.setsPc = true)
    (hp : s.pc.toNat ≤ 253) : u.pc.toNat ≤ 256 := by
  have hfall : (fallThrough s).toNat ≤ 256 := pc_add_le hp (by decide)
  cases h with
  | ret | call | jmp => exact targetPc_le _
  | jeq =>
    rw [State.setPc_pc]
    split
    · exact targetPc_le _
    · exact hfall
  | jne =>
    rw [State.setPc_pc]
    split
    · exact hfall
    · exact targetPc_le _
  | _ => cases hi

/-- No instruction is longer than three bytes (R90). -/
theorem instrLength_le (i : Instr) : instrLength i.opcode ≤ 3 := by
  rw [instrLength, operandCount_opcode]
  exact Nat.succ_le_succ (operands_length_le i)

/-- An instruction fetched inside the memory leaves pc at most at the end of it. -/
theorem Effect.advance_pc_le {s u : State} {i : Instr} (h : Effect s i u) (hp : s.pc.toNat ≤ 253) :
    (u.advance i s.pc).pc.toNat ≤ 256 := by
  cases hi : i.setsPc with
  | true =>
    rw [State.advance_of_setsPc hi]
    exact h.pc_le_of_setsPc hi hp
  | false =>
    rw [State.advance_of_not_setsPc hi, State.setPc_pc]
    exact pc_add_le hp (instrLength_le i)

/-! ### FL (R33) -/

/-- CMP writes one of the three flags. -/
theorem compareFlags_cases (x y : Byte) :
    compareFlags x y = 0x01#8 ∨ compareFlags x y = 0x04#8 ∨ compareFlags x y = 0x02#8 := by
  rcases Nat.lt_trichotomy x.toNat y.toNat with h | h | h
  · exact .inr (.inl (compareFlags_of_lt h))
  · exact .inl (compareFlags_of_eq h)
  · exact .inr (.inr (compareFlags_of_gt h))

/-- Every rule leaves FL at one of the four legal values. -/
theorem Effect.flLegal {s u : State} {i : Instr} (h : Effect s i u) (hs : s.FlLegal) : u.FlLegal := by
  cases h with
  | @cmp rA rB a b ha hb =>
    obtain he | hl | hg := compareFlags_cases (s.reg a) (s.reg b)
    · exact .inr (.inl he)
    · exact .inr (.inr (.inr hl))
    · exact .inr (.inr (.inl hg))
  | _ => exact hs

/-! ### Memory (R50) -/

/-- Every rule keeps the canonical form: what it stores is at a byte, and so inside the memory. -/
theorem Effect.memWf {s u : State} {i : Instr} (h : Effect s i u) (hs : s.mem.wf = true) :
    u.mem.wf = true := by
  cases h with
  | st | push | call => exact Memory.wf_write (BitVec.isLt _) hs
  | _ => exact hs

/-! ### Every tick keeps the invariant -/

section
variable {s : State}

/-- What a RUNNING state of the invariant holds in its halt cause and its fault record. -/
theorem State.Inv.of_running (h : s.Inv) (hr : s.run = .running) :
    s.haltCause = .none ∧ s.fault = FaultRecord.empty := by
  obtain ⟨-, hc, hf⟩ | ⟨hh, -⟩ | ⟨hh, -⟩ := h.haltRecord
  · exact ⟨hc, hf⟩
  · rw [hr] at hh
    cases hh
  · rw [hr] at hh
    cases hh

/-- The fault entry keeps the invariant: it records a code and pc (R205). -/
theorem State.Inv.takeFault (h : s.Inv) (f : Fault) : (s.takeFault f).Inv where
  memWf := h.memWf
  pcBound := h.pcBound
  flLegal := h.flLegal
  haltRecord := .inr (.inr ⟨rfl, rfl, rfl, f.code_ne_none, rfl⟩)

/-- An instruction's rule, from a RUNNING state, leaves the halt cause in agreement: HLT's or none. -/
theorem Effect.haltRecordAgrees {u : State} {i : Instr} (h : Effect s i u) (hs : s.Inv)
    (hr : s.run = .running) : (u.advance i s.pc).HaltRecordAgrees := by
  obtain ⟨hcause, hfault⟩ := hs.of_running hr
  obtain ⟨rfl, rfl⟩ | hsame := h.hlt_or_sameRunState
  · exact .inr (.inl ⟨rfl, rfl, rfl, hfault⟩)
  · obtain ⟨hrun, hc, -, hf⟩ := hsame.advance i s.pc
    exact .inl ⟨hrun.trans hr, hc.trans hcause, hf.trans hfault⟩

/-- An instruction that takes its effect keeps the invariant. -/
theorem State.Inv.effect {u : State} {i : Instr} (hs : s.Inv) (h : Effect s i u)
    (hr : s.run = .running) (hp : s.pc.toNat ≤ 253) : (u.advance i s.pc).Inv where
  memWf := by simpa using h.memWf hs.memWf
  pcBound := h.advance_pc_le hp
  flLegal := by simpa [State.FlLegal] using h.flLegal hs.flLegal
  haltRecord := h.haltRecordAgrees hs hr

/-- An instruction is fetched only where its three bytes exist. -/
theorem pc_le_of_fetchInstr {i : Instr} (h : fetchInstr s = .ok i) : s.pc.toNat ≤ 253 := by
  obtain ⟨-, hf⟩ | ⟨hp, -⟩ | ⟨hp, -⟩ := fetchInstr_cases s
  · rw [hf] at h
    cases h
  · exact hp
  · exact hp

/-- A tick keeps the invariant. -/
theorem State.Inv.step {t : State} (hs : s.Inv) (h : step s = .next t) : t.Inv := by
  obtain ⟨-, rfl⟩ | ⟨hr, i, hfetch, hi⟩ | ⟨-, f, -, rfl⟩ := step_cases h
  · exact hs
  · obtain ⟨u, hu, rfl⟩ | ⟨f, -, rfl⟩ := exec_cases hi
    · exact hs.effect hu hr (pc_le_of_fetchInstr hfetch)
    · exact hs.takeFault f
  · exact hs.takeFault f

end

/-! ### The obligations -/

/-- Settles O45: the fault entry keeps the invariant, and so does each instruction's rule, clause by clause, from
a pc whose three bytes exist. -/
theorem stepKeepsInvariant : Obligations.StepKeepsInvariant :=
  fun _ _ hs h => hs.step h

/-- Settles O43: the reset state's fields are the spec's values. -/
theorem resetLeavesSpecValues : Obligations.ResetLeavesSpecValues := by
  have hother : ∀ r : RegName, r ≠ 7 → State.reset.reg r = 0#8 := by decide
  exact ⟨rfl, hother, rfl, rfl, fun _ => rfl, rfl, rfl, rfl, rfl, rfl, rfl, rfl⟩

/-- Settles O44: reset is RUNNING with memory empty, pc 0, FL 0 and an empty record. -/
theorem resetMeetsInvariant : Obligations.ResetMeetsInvariant where
  memWf := rfl
  pcBound := Nat.zero_le _
  flLegal := .inl rfl
  haltRecord := .inl ⟨rfl, rfl, rfl⟩

end Sys2Proof.Machine
end

section
/-! PROOFS. What each instruction writes (spec/10_state.md sections 2 to 5, spec/20_memory.md section 3): the
registers, the byte of memory, the output and the run state, said once for every instruction; the frames of the
instructions and the sources of a tick's changes are read off from it. -/

namespace Sys2Proof.Machine

/-! ### What an instruction names as written -/

/-- The registers an instruction's rule may write: the named destination, and SP where the stack is used. -/
def writesReg : Instr → RegName → Prop
  | .add a _, r | .sub a _, r | .mul a _, r | .div a _, r => r.val = a.toNat
  | .inc a, r | .dec a, r | .ldi a _, r => r.val = a.toNat
  | .pop a, r => r.val = a.toNat ∨ r = 7
  | .push _, r | .call _, r | .ret, r => r = 7
  | .cmp _ _, _ | .st _ _, _ | .prn _, _ | .jmp _, _ | .jeq _, _ | .jne _, _ | .hlt, _ => False

/-- The address an instruction's rule may store to: `x[rA]` for ST, the decremented SP for PUSH and CALL. -/
def storesAt (s : State) : Instr → Nat → Prop
  | .st a _, q => ∃ r : RegName, a.toNat = r.val ∧ q = (s.reg r).toNat
  | .push _, q | .call _, q => q = s.decSp.sp.toNat
  | _, _ => False

section
variable {s t u : State} {i : Instr}

/-! ### Registers (R25) -/

/-- A register that is not the one set keeps its value. -/
theorem reg_setReg_of_val_ne {a r : RegName} {rA v : Byte} (ha : rA.toNat = a.val)
    (h : ¬ r.val = rA.toNat) : (s.setReg a v).reg r = s.reg r :=
  s.reg_setReg_ne v fun e => h (e ▸ ha.symm)

/-- A rule leaves every register it does not name. -/
theorem Effect.reg_of_not_writesReg (h : Effect s i u) {r : RegName} (hw : ¬ writesReg i r) :
    u.reg r = s.reg r := by
  cases h with
  | add ha | sub ha | mul ha | div ha | inc ha | dec ha | ldi ha => exact reg_setReg_of_val_ne ha hw
  | pop ha =>
    obtain ⟨hr, h7⟩ := not_or.mp hw
    exact (State.reg_incSp_ne _ h7).trans (reg_setReg_of_val_ne ha hr)
  | push | call => exact s.reg_decSp_ne hw
  | ret => exact State.reg_incSp_ne _ hw
  | _ => rfl

/-- An instruction leaves every register it does not name, whether it faults or not. -/
theorem exec_reg_of_not_writesReg (h : exec i s = .next t) {r : RegName} (hw : ¬ writesReg i r) :
    t.reg r = s.reg r := by
  obtain ⟨u, hu, rfl⟩ | ⟨f, -, rfl⟩ := exec_cases h
  · rw [State.reg_advance, hu.reg_of_not_writesReg hw]
  · rfl

/-! ### Memory (R55) -/

/-- A rule leaves every byte but the one it stores to. -/
theorem Effect.read_of_not_storesAt (h : Effect s i u) {q : Nat} (hw : ¬ storesAt s i q) :
    u.mem.read q = s.mem.read q := by
  cases h with
  | st ha => exact Memory.read_write_ne _ _ fun hq => hw ⟨_, ha, hq⟩
  | push | call => exact Memory.read_write_ne _ _ hw
  | _ => rfl

/-- An instruction leaves every byte but the one it stores to, whether it faults or not. -/
theorem exec_read_of_not_storesAt (h : exec i s = .next t) {q : Nat} (hw : ¬ storesAt s i q) :
    t.mem.read q = s.mem.read q := by
  obtain ⟨u, hu, rfl⟩ | ⟨f, -, rfl⟩ := exec_cases h
  · rw [State.advance_mem, hu.read_of_not_storesAt hw]
  · rfl

/-! ### Output (R39) -/

/-- An instruction leaves the output, or it is a PRN that appends the byte of the register it names. -/
theorem exec_out_cases (h : exec i s = .next t) :
    t.out = s.out ∨
      ∃ (a : Byte) (r : RegName), i = .prn a ∧ a.toNat = r.val ∧ t.out = s.out ++ [s.reg r] := by
  obtain ⟨u, hu, rfl⟩ | ⟨f, -, rfl⟩ := exec_cases h
  · rw [State.advance_out]
    cases hu with
    | prn ha => exact .inr ⟨_, _, rfl, ha, rfl⟩
    | _ => exact .inl rfl
  · exact .inl rfl

/-- An instruction that is no PRN leaves the output. -/
theorem exec_out_of_ne_prn (h : exec i s = .next t) (hi : ∀ a, i ≠ .prn a) : t.out = s.out := by
  obtain hout | ⟨a, -, hprn, -⟩ := exec_out_cases h
  · exact hout
  · exact absurd hprn (hi a)

/-! ### FL (R34) -/

/-- An instruction that is no CMP leaves FL. -/
theorem exec_fl_of_ne_cmp (h : exec i s = .next t) (hi : ∀ a b, i ≠ .cmp a b) : t.fl = s.fl := by
  by_contra hfl
  obtain ⟨a, b, hcmp⟩ := exec_cmp_of_fl_ne h hfl
  exact hi a b hcmp

/-! ### The run state (R36 to R38) -/

/-- An instruction that is no HLT leaves the run state, or it is the fault entry. -/
theorem exec_sameRunState_or_faulted (h : exec i s = .next t) (hi : i ≠ .hlt) :
    s.SameRunState t ∨ ∃ code info, code ≠ .none ∧ t = s.faulted code info := by
  obtain ⟨u, hu, rfl⟩ | ⟨f, -, rfl⟩ := exec_cases h
  · obtain ⟨hhlt, -⟩ | hsame := hu.hlt_or_sameRunState
    · exact absurd hhlt hi
    · exact .inl (hsame.advance i s.pc)
  · exact .inr ⟨f.code, f.info, f.code_ne_none, rfl⟩

end

/-! ### The obligations -/

/-- Settles O19: none of the seven is a CMP, a PRN, a HLT or a store, and each names its destination only. -/
theorem registerWritingFormsFrame : Obligations.RegisterWritingFormsFrame := by
  intro s t a b i hi h
  rcases hi with rfl | rfl | rfl | rfl | rfl | rfl | rfl <;>
    exact ⟨fun r hr => exec_reg_of_not_writesReg h hr, exec_fl_of_ne_cmp h nofun,
      exec_out_of_ne_prn h nofun, fun q => exec_read_of_not_storesAt h id,
      exec_sameRunState_or_faulted h nofun⟩

/-- Settles O20: none of the six names a register or stores; FL, the output and the run state change only by the
instruction that may change them. -/
theorem registerKeepingFormsFrame : Obligations.RegisterKeepingFormsFrame := by
  intro s t a b i hi h
  have hreg : ∀ r, ¬ writesReg i r := by
    rcases hi with rfl | rfl | rfl | rfl | rfl | rfl <;> exact fun _ => id
  have hmem : ∀ q, ¬ storesAt s i q := by
    rcases hi with rfl | rfl | rfl | rfl | rfl | rfl <;> exact fun _ => id
  refine ⟨fun r => exec_reg_of_not_writesReg h (hreg r),
    fun q => exec_read_of_not_storesAt h (hmem q), fun hfl => ?_, fun hout => ?_, ?_⟩
  · obtain ⟨a', b', rfl⟩ := exec_cmp_of_fl_ne h hfl
    simpa using hi
  · obtain hsame | ⟨a', -, rfl, -⟩ := exec_out_cases h
    · exact absurd hsame hout
    · simpa using hi
  · by_cases hhlt : i = .hlt
    · subst hhlt
      rw [exec_hlt] at h
      cases h
      exact .inr (.inl ⟨rfl, rfl⟩)
    · exact (exec_sameRunState_or_faulted h hhlt).imp_right .inr

/-- Settles O21: ST stores at `x[rA]`, PUSH and CALL at the decremented SP, and none is a CMP, a PRN or a HLT. -/
theorem storingFormsFrame : Obligations.StoringFormsFrame := by
  refine fun s t a b => ⟨fun h => ⟨?_, fun r => exec_reg_of_not_writesReg h id⟩, ?_, ?_⟩
  · rintro i adr ha rfl q hq
    refine exec_read_of_not_storesAt h ?_
    rintro ⟨r, hr, rfl⟩
    exact hq (congrArg (fun x => (s.reg x).toNat) (Fin.ext (hr.symm.trans ha)))
  · rintro (h | h) <;>
      exact ⟨fun adr hadr q hq => exec_read_of_not_storesAt h fun e => hq (e.trans hadr),
        fun r => exec_reg_of_not_writesReg h⟩
  · rintro (h | h | h) <;>
      exact ⟨exec_fl_of_ne_cmp h nofun, exec_out_of_ne_prn h nofun,
        exec_sameRunState_or_faulted h nofun⟩

/-- Settles O22: POP names its register and SP, RET names SP, and neither is a CMP, a PRN, a HLT or a store. -/
theorem stackReadingFormsFrame : Obligations.StackReadingFormsFrame := by
  refine fun s t a => ⟨fun h r hr h7 => exec_reg_of_not_writesReg h (not_or.mpr ⟨hr, h7⟩),
    fun h r => exec_reg_of_not_writesReg h, ?_⟩
  rintro (h | h) <;>
    exact ⟨fun q => exec_read_of_not_storesAt h id, exec_fl_of_ne_cmp h nofun,
      exec_out_of_ne_prn h nofun, exec_sameRunState_or_faulted h nofun⟩

/-- Settles O34: a tick that does not take place, or that faults, leaves the output, and an instruction leaves it
but for the byte of a PRN. -/
theorem outputGrowsOnlyByPrn : Obligations.OutputGrowsOnlyByPrn := by
  intro s t h
  obtain ⟨-, rfl⟩ | ⟨hr, i, hfetch, hi⟩ | ⟨-, f, -, rfl⟩ := step_cases h
  · exact .inl rfl
  · obtain hsame | ⟨a, r, rfl, ha, hout⟩ := exec_out_cases hi
    · exact .inl hsame
    · exact .inr ⟨a, r, hr, hfetch, ha, hout, outputEvents_of_append hout⟩
  · exact .inl rfl

/-- Settles O35: a byte that a tick changes is the one its instruction stores to. -/
theorem memoryChangesOnlyByStores : Obligations.MemoryChangesOnlyByStores := by
  intro s t q h hq
  obtain ⟨-, rfl⟩ | ⟨hr, i, hfetch, hi⟩ | ⟨-, f, -, rfl⟩ := step_cases h
  · exact absurd rfl hq
  · have hstore : storesAt s i q := by
      by_contra hno
      exact hq (exec_read_of_not_storesAt hi hno)
    refine ⟨hr, ?_⟩
    cases i with
    | st a b =>
      obtain ⟨r, ha, hadr⟩ := hstore
      exact .inl ⟨a, b, r, hfetch, ha, hadr⟩
    | push a => exact .inr ⟨a, .inl hfetch, hstore.trans s.decSp_sp_toNat⟩
    | call a => exact .inr ⟨a, .inr hfetch, hstore.trans s.decSp_sp_toNat⟩
    | _ => cases hstore
  · exact absurd rfl hq

end Sys2Proof.Machine
end

section
/-! PROOFS. Faults (spec/60_exceptions.md sections 1 and 2): a raise decides what `exec` answers, the order of the
faults, where each comes from, and the record they leave; and DIV, which can raise by its divisor
(spec/40_alu.md section 2). -/

namespace Sys2Proof.Machine

/-! ### A raise decides the next state -/

section
variable {s t : State} {i : Instr} {f : Fault}

/-- A selector found by the check of selectors names no register. -/
theorem mem_selectors_of_find {sel : Byte}
    (h : i.selectors.find? (fun b => decide (8 ≤ b.toNat)) = some sel) :
    sel ∈ i.selectors ∧ 8 ≤ sel.toNat :=
  ⟨List.mem_of_find?_eq_some h, by simpa using List.find?_some h⟩

/-- An instruction that takes its effect does not raise. -/
theorem Effect.not_raises {u : State} (h : Effect s i u) : ¬ Raises s i f := by
  intro hr
  cases hr with
  | selector hsel =>
    obtain ⟨hmem, hge⟩ := mem_selectors_of_find hsel
    exact absurd (h.selector_lt hmem) hge.not_gt
  | div _ hb hz =>
    cases h with
    | div _ hb' hnz =>
      obtain rfl := Fin.ext (hb'.symm.trans hb)
      exact hnz hz

/-- An instruction raises one fault only. -/
theorem Raises.unique {g : Fault} (hf : Raises s i f) (hg : Raises s i g) : f = g := by
  cases hf with
  | selector hsel => exact (hg.eq_of_find_selector hsel).symm
  | div ha hb hz =>
    cases hg with
    | selector hsel => exact (Raises.div ha hb hz).eq_of_find_selector hsel
    | div _ hb' _ => rw [Fin.ext (hb.symm.trans hb')]

/-- A raise determines what `exec` answers. -/
theorem exec_of_raises (h : Raises s i f) : exec i s = .next (s.takeFault f) := by
  obtain ⟨u, hu⟩ | ⟨g, hg, he⟩ := exec_total i s
  · exact absurd h hu.not_raises
  · rw [he, hg.unique h]

/-! ### Well-formed instructions (R84, R100) -/

/-- A well-formed instruction's selectors all name registers. -/
theorem wellFormed_iff : i.wellFormed = true ↔ ∀ sel ∈ i.selectors, sel.toNat < 8 := by
  simp [Instr.wellFormed]

/-- A well-formed instruction raises only by a zero divisor. -/
theorem Raises.div_of_wellFormed (h : Raises s i f) (hw : i.wellFormed = true) :
    ∃ (rA rB : Byte) (b : RegName), i = .div rA rB ∧ rB.toNat = b.val ∧ s.reg b = 0#8 := by
  cases h with
  | selector hsel =>
    obtain ⟨hmem, hge⟩ := mem_selectors_of_find hsel
    exact absurd (wellFormed_iff.mp hw _ hmem) hge.not_gt
  | div _ hb hz => exact ⟨_, _, _, rfl, hb, hz⟩

/-- A zero divisor is raised by a well-formed DIV. -/
theorem exec_div_zero {rA rB : Byte} {b : RegName} (ha : rA.toNat < 8) (hb : rB.toNat = b.val)
    (hz : s.reg b = 0#8) :
    exec (.div rA rB) s = .next (s.faulted .divideByZero (BitVec.ofNat 9 b.val)) :=
  exec_of_raises (.div (a := ⟨rA.toNat, ha⟩) rfl hb hz)

/-! ### DIV (R124) -/

/-- DIV by a register that is not zero writes the quotient and advances pc. -/
theorem exec_div {rA rB : Byte} {a b : RegName} (ha : rA.toNat = a.val) (hb : rB.toNat = b.val)
    (hz : s.reg b ≠ 0#8) :
    exec (.div rA rB) s = .next { s with
      regs := s.regs.set a.val (BitVec.ofNat 8 ((s.reg a).toNat / (s.reg b).toNat))
      pc := s.pc + 3#9 } := by
  rw [exec_of_effect (.div ha hb hz), State.advance_div]
  rfl

/-- A number that fits a word keeps its value in it. -/
theorem toNat_ofNat_of_lt {w n : Nat} (h : n < 2 ^ w) : (BitVec.ofNat w n).toNat = n := by
  rw [BitVec.toNat_ofNat, Nat.mod_eq_of_lt h]

/-- A quotient of bytes is a byte. -/
theorem quotient_toNat (x y : Byte) : (BitVec.ofNat 8 (x.toNat / y.toNat)).toNat = x.toNat / y.toNat :=
  toNat_ofNat_of_lt ((Nat.div_le_self _ _).trans_lt x.isLt)

/-! ### What a tick does to the fault record (R38, R205) -/

/-- A rule leaves the fault record. -/
theorem Effect.fault_eq {u : State} (h : Effect s i u) : u.fault = s.fault := by
  obtain ⟨-, rfl⟩ | ⟨-, -, -, hf⟩ := h.hlt_or_sameRunState
  · rfl
  · exact hf

/-- Every fault that a tick reports: the fetch's or the opcode's, or the instruction's. -/
theorem step_fault_cases (h : step s = .next t) :
    t.fault = s.fault ∨
      (s.run = .running ∧
        ∃ f, t = s.takeFault f ∧ (fetchInstr s = .error f ∨ ∃ i, Raises s i f)) := by
  obtain ⟨-, rfl⟩ | ⟨hr, i, -, hi⟩ | ⟨hr, f, hf, rfl⟩ := step_cases h
  · exact .inl rfl
  · obtain ⟨u, hu, rfl⟩ | ⟨f, hraise, rfl⟩ := exec_cases hi
    · exact .inl ((u.advance_fault i s.pc).trans hu.fault_eq)
    · exact .inr ⟨hr, f, rfl, .inr ⟨i, hraise⟩⟩
  · exact .inr ⟨hr, f, rfl, .inl hf⟩

/-- No instruction raises OutOfBounds(MEM): at 256 bytes every byte is an address (R56). -/
theorem Raises.code_ne_outOfBoundsMem (h : Raises s i f) : f.code ≠ .outOfBoundsMem := by
  cases h with
  | selector | div => exact FaultCode.noConfusion

/-- A fetch that raises OutOfBounds(MEM) started at 254 or above. -/
theorem fetchInstr_outOfBoundsMem (h : fetchInstr s = .error f) (hc : f.code = .outOfBoundsMem) :
    254 ≤ s.pc.toNat ∧ f = .outOfBoundsMem (max s.pc.toNat 256) := by
  obtain ⟨hp, hf⟩ | ⟨-, i, hf⟩ | ⟨-, hf⟩ := fetchInstr_cases s <;> rw [hf] at h <;> cases h
  · exact ⟨hp, rfl⟩
  · cases hc

end

/-! ### The obligations -/

/-- Settles O4: the quotient of two bytes is a byte, and the two bounds are those of natural division; a zero
divisor is the raise that is left where both selectors name registers. -/
theorem divWritesFloorQuotientOrRaises : Obligations.DivWritesFloorQuotientOrRaises := by
  refine fun s a b => ⟨decode_encode_append (.div a b), fun i j ha hb => ⟨fun hz => ?_, fun hz => ?_⟩,
    exec_of_bad_opA rfl, exec_of_bad_opB rfl⟩
  · refine ⟨_, exec_div ha hb (mt (congrArg BitVec.toNat) hz), ?_⟩
    have hq : State.reg { s with
        regs := s.regs.set i.val (BitVec.ofNat 8 ((s.reg i).toNat / (s.reg j).toNat))
        pc := s.pc + 3#9 } i = BitVec.ofNat 8 ((s.reg i).toNat / (s.reg j).toNat) :=
      s.reg_setReg_self i _
    rw [hq, quotient_toNat]
    exact ⟨Nat.div_mul_le_self _ _,
      (Nat.div_lt_iff_lt_mul (Nat.pos_of_ne_zero hz)).mp (Nat.lt_succ_self _), rfl⟩
  · exact exec_div_zero (ha ▸ i.isLt) hb (BitVec.eq_of_toNat_eq hz)

/-- Settles O38: an address of 9 bits, a byte and a register index all fit the 9 bits of the info. -/
theorem faultCodesAndInfo : Obligations.FaultCodesAndInfo := by
  refine ⟨rfl, fun addr h => ⟨rfl, ?_⟩, fun sel => ⟨rfl, ?_⟩, fun op => ⟨rfl, ?_⟩, fun r => ⟨rfl, ?_⟩⟩
  · exact toNat_ofNat_of_lt h
  · exact BitVec.toNat_setWidth_of_le (by decide)
  · exact BitVec.toNat_setWidth_of_le (by decide)
  · exact toNat_ofNat_of_lt (r.isLt.trans (by decide))

/-- Settles O39: the fetch raises before the opcode, the opcode before the selectors, the selectors before the
divisor, and an instruction that raises none of these takes its effect. -/
theorem faultPriorityIsComplete : Obligations.FaultPriorityIsComplete := by
  refine fun s hr hs => ⟨fun hp => ⟨_, step_of_pc_gt hr hp⟩, fun hp => ⟨fun f hf => ?_,
    fun i hi => ⟨fun sel hsel => ?_, fun hw => ⟨?_, fun hnz => ?_⟩⟩⟩⟩
  · obtain ⟨hgt, -⟩ | ⟨-, i, hi⟩ | ⟨-, hill⟩ := fetchInstr_cases s
    · exact absurd hgt hp.not_gt
    · rw [hi] at hf
      cases hf
    · rw [step_of_error hr hill]
      rfl
  · rw [step_of_ok hr hi, exec_of_find_selector hsel]
  · rintro a b r rfl hb hz
    have ha : a.toNat < 8 := wellFormed_iff.mp hw a List.mem_cons_self
    rw [step_of_ok hr hi, exec_div_zero ha hb hz]
  · rw [step_of_ok hr hi]
    obtain ⟨u, hu⟩ | ⟨f, hraise, -⟩ := exec_total i s
    · refine ⟨_, exec_of_effect hu, ?_, ?_⟩
      · simpa using hu.haltCause_ne_fault hs
      · simpa using hu.fault_eq
    · obtain ⟨rA, rB, b, hdiv, hb, hz⟩ := hraise.div_of_wellFormed hw
      exact absurd hz (hnz rA rB b hdiv hb)

/-- Settles O40: the record of a RUNNING state is empty, no instruction raises OutOfBounds(MEM), and a fetch from a
pc of at most 256 reports 256. -/
theorem memoryFaultOnlyAtEndOfMemory : Obligations.MemoryFaultOnlyAtEndOfMemory := by
  intro s t hs hr h hc
  obtain hsame | ⟨-, f, rfl, hf | ⟨i, hraise⟩⟩ := step_fault_cases h
  · rw [hsame, (hs.of_running hr).2] at hc
    cases hc
  · obtain ⟨hp, rfl⟩ := fetchInstr_outOfBoundsMem hf hc
    refine ⟨hp, ?_⟩
    rw [State.takeFault_fault, Nat.max_eq_right hs.pcBound]
    rfl
  · exact absurd hc hraise.code_ne_outOfBoundsMem

/-- Settles O41: a tick that changes the record is a fault entry, and the host's other moves touch memory and
`clock_on` only. -/
theorem faultRecordWrittenOnce : Obligations.FaultRecordWrittenOnce := by
  refine ⟨fun s t h hne => ?_, fun x y mv h hs hc => ?_⟩
  · obtain hsame | ⟨hr, f, rfl, -⟩ := step_fault_cases h
    · exact absurd hsame hne
    · exact ⟨hr, rfl, rfl, f.code_ne_none, rfl⟩
  · obtain ⟨m, c, hy⟩ := Session.move_frame h hs hc
    rw [hy]

end Sys2Proof.Machine
end

section
/-! PROOFS. Memory (spec/20_memory.md): the canonical form is determined by what it reads as (section 1), the bytes
placed at pc are what the next tick runs (section 4 of 30_encoding.md), and a store into code is seen by later
fetches only (section 6). -/

namespace Sys2Proof.Machine

/-! ### The canonical form and its reads (R50, R51) -/

/-- Below the first cell's address everything reads as 0. -/
theorem Memory.read_of_above {lo q : Nat} {m : Memory} (h : Memory.above lo m = true) (hq : q ≤ lo) :
    m.read q = 0#8 := by
  induction m with
  | nil => rfl
  | cons c m ih =>
    simp only [Memory.above, Bool.and_eq_true, decide_eq_true_eq] at h
    obtain ⟨hlt, habove⟩ := h
    rw [Memory.read_cons, if_neg (hq.trans_lt hlt).ne', ih habove]

/-- The first cell of a canonical memory reads as its byte, which is not 0. -/
theorem Memory.read_head_ne_zero {k : Nat} {v : Byte} {m : Memory}
    (h : Memory.wf ((k, v) :: m) = true) : Memory.read ((k, v) :: m) k ≠ 0#8 := by
  obtain ⟨-, hv, -, -⟩ := Memory.wf_cons.mp h
  rwa [Memory.read_cons, if_pos rfl]

/-- The first cell of a canonical memory is not below that of another that reads the same. -/
theorem Memory.head_le_of_read_eq {j k : Nat} {v w : Byte} {m n : Memory}
    (hm : Memory.wf ((j, v) :: m) = true) (hn : Memory.wf ((k, w) :: n) = true)
    (h : ∀ q, Memory.read ((j, v) :: m) q = Memory.read ((k, w) :: n) q) : k ≤ j := by
  by_contra hlt
  obtain ⟨-, -, habove, -⟩ := Memory.wf_cons.mp hn
  have hzero : Memory.read ((k, w) :: n) j = 0#8 := by
    rw [Memory.read_cons, if_neg (Nat.not_le.mp hlt).ne',
      Memory.read_of_above habove (Nat.not_le.mp hlt).le]
  exact Memory.read_head_ne_zero hm ((h j).trans hzero)

/-- Canonical memories whose first cells stand at one address have the same first byte, and their other cells read
the same. -/
theorem Memory.tail_read_eq {k : Nat} {v w : Byte} {m n : Memory}
    (hm : Memory.wf ((k, v) :: m) = true) (hn : Memory.wf ((k, w) :: n) = true)
    (h : ∀ q, Memory.read ((k, v) :: m) q = Memory.read ((k, w) :: n) q) :
    v = w ∧ ∀ q, m.read q = n.read q := by
  obtain ⟨-, -, hma, -⟩ := Memory.wf_cons.mp hm
  obtain ⟨-, -, hna, -⟩ := Memory.wf_cons.mp hn
  refine ⟨by simpa [Memory.read_cons] using h k, fun q => ?_⟩
  rcases eq_or_ne k q with rfl | hq
  · rw [Memory.read_of_above hma le_rfl, Memory.read_of_above hna le_rfl]
  · simpa [Memory.read_cons, hq] using h q

/-- A canonical memory is determined by what it reads as. -/
theorem Memory.eq_of_read_eq {m n : Memory} (hm : m.wf = true) (hn : n.wf = true)
    (h : ∀ q, m.read q = n.read q) : m = n := by
  induction m generalizing n with
  | nil =>
    cases n with
    | nil => rfl
    | cons d n => exact absurd (h d.1).symm (Memory.read_head_ne_zero hn)
  | cons c m ih =>
    obtain ⟨j, v⟩ := c
    cases n with
    | nil => exact absurd (h j) (Memory.read_head_ne_zero hm)
    | cons d n =>
      obtain ⟨k, w⟩ := d
      obtain rfl : j = k := le_antisymm (Memory.head_le_of_read_eq hn hm fun q => (h q).symm)
        (Memory.head_le_of_read_eq hm hn h)
      obtain ⟨rfl, htail⟩ := Memory.tail_read_eq hm hn h
      obtain ⟨-, -, -, hmw⟩ := Memory.wf_cons.mp hm
      obtain ⟨-, -, -, hnw⟩ := Memory.wf_cons.mp hn
      rw [ih hmw hnw htail]

/-! ### Bytes placed in a row -/

/-- Where the bytes fit, placing them is what a write of each would be: an address they cover reads as its byte,
and every other one as before. -/
theorem Memory.read_placeBytes (m : Memory) {a : Nat} {bs : List Byte} (h : a + bs.length ≤ 256)
    (q : Nat) :
    (m.placeBytes a bs).read q = if a ≤ q then bs.getD (q - a) (m.read q) else m.read q := by
  induction bs generalizing m a with
  | nil => simp [Memory.placeBytes]
  | cons b bs ih =>
    rw [List.length_cons] at h
    have ha : a < Config.memSize := show a < 256 by omega
    rw [Memory.placeBytes, if_pos ha, ih _ (by omega), Memory.read_write]
    rcases Nat.lt_trichotomy q a with hq | rfl | hq
    · simp [hq.not_ge, hq.ne, Nat.not_le.mpr (Nat.lt_succ_of_lt hq)]
    · simp
    · have hk : q - a = q - (a + 1) + 1 := by omega
      rw [if_pos (Nat.succ_le_of_lt hq), if_neg hq.ne', if_pos hq.le, hk, List.getD_cons_succ]

/-- Bytes placed in a row leave every address outside it. -/
theorem Memory.read_placeBytes_of_outside (m : Memory) {a q : Nat} {bs : List Byte}
    (h : a + bs.length ≤ 256) (hq : q < a ∨ a + bs.length ≤ q) :
    (m.placeBytes a bs).read q = m.read q := by
  rw [m.read_placeBytes h]
  split
  · next hle => exact List.getD_eq_default _ _ (by omega)
  · rfl

/-- Bytes placed in a row are read back. -/
theorem Memory.read_placeBytes_add (m : Memory) {a k : Nat} {bs : List Byte}
    (h : a + bs.length ≤ 256) (hk : k < bs.length) :
    (m.placeBytes a bs).read (a + k) = bs[k] := by
  rw [m.read_placeBytes h, if_pos (Nat.le_add_right a k), Nat.add_sub_cancel_left,
    List.getD_eq_getElem _ _ hk]

/-! ### A table word placed at pc -/

/-- A table word that names an instruction has bytes that decode to it. -/
theorem decodeFetched_of_decodeTableWord {nbits w : Nat} {i : Instr}
    (h : decodeTableWord nbits w = some i) :
    decodeFetched (tableByte (w % 2 ^ nbits) 0) (tableByte (w % 2 ^ nbits) 1)
      (tableByte (w % 2 ^ nbits) 2) = .ok i := by
  unfold decodeTableWord at h
  split at h
  · cases h
  · next j rest hdec =>
    cases h
    exact (decode_cons_eq_ok_iff.mp hdec).1

/-- A table word placed where three bytes exist is what the next fetch reads. -/
theorem fetchInstr_withFetchWord {s : State} {nbits w : Nat} {i : Instr} (hp : s.pc.toNat ≤ 253)
    (h : decodeTableWord nbits w = some i) : fetchInstr (s.withFetchWord nbits w) = .ok i := by
  have hfit : s.pc.toNat + (tableBytes nbits w).length ≤ 256 := Nat.add_le_add_right hp 3
  have hread (k : Nat) (hk : k < 3) :
      (s.withFetchWord nbits w).mem.read (s.pc.toNat + k) = (tableBytes nbits w)[k] :=
    s.mem.read_placeBytes_add hfit hk
  refine fetchInstr_of_decode hp ?_
  show decodeFetched ((s.withFetchWord nbits w).mem.read (s.pc.toNat + 0))
    ((s.withFetchWord nbits w).mem.read (s.pc.toNat + 1))
    ((s.withFetchWord nbits w).mem.read (s.pc.toNat + 2)) = .ok i
  rw [hread 0 (by decide), hread 1 (by decide), hread 2 (by decide)]
  exact decodeFetched_of_decodeTableWord h

/-! ### The obligations -/

/-- Settles O51: from the first cells on, whose addresses and bytes must agree. -/
theorem canonicalMemoriesAgreeWhenReadsAgree : Obligations.CanonicalMemoriesAgreeWhenReadsAgree :=
  fun _ _ => Memory.eq_of_read_eq

/-- Settles O42: the three bytes fit at a pc of at most 253, the fetch reads them back, and they decode to the
word's instruction. -/
theorem placedTableWordRunsNext : Obligations.PlacedTableWordRunsNext :=
  fun s _ _ _ hr hp h => ⟨step_of_ok hr (fetchInstr_withFetchWord hp h),
    fun _ hq => s.mem.read_placeBytes_of_outside (Nat.add_le_add_right hp 3) hq⟩

/-- Settles O50: the ST runs with the operands its tick fetched, and a later fetch reads the memory it left. -/
theorem storeIsSeenByLaterFetches : Obligations.StoreIsSeenByLaterFetches := by
  intro s t a b i j hr hp hop hA hB ha hb h
  have hfetch : fetchInstr s = .ok (.st a b) := by
    refine fetchInstr_of_decode hp ?_
    rw [hop, hA, hB]
    rfl
  rw [step_of_ok hr hfetch, exec_st ha hb] at h
  cases h
  have hread : (s.mem.write (s.reg i).toNat (s.reg j)).read (s.reg i).toNat = s.reg j :=
    s.mem.read_write_self _ _
  refine ⟨hread, pc_add_toNat hp (by decide), fun u hu hpu => ⟨_, fetch_of_le hpu, ?_, ?_, ?_⟩⟩ <;>
    rw [hu] <;> exact fun hadr => hadr ▸ hread

end Sys2Proof.Machine
end

section
/-! PROOFS. CALL (spec/43_control.md), and the round trips over two instructions: PUSH and POP (spec/42_stack.md),
CALL and RET (spec/43_control.md), INC, DEC, ADD and SUB (spec/40_alu.md section 5). -/

namespace Sys2Proof.Machine

/-- A selector below 8 names a register (R84). -/
theorem exists_regName {b : Byte} (h : b.toNat < 8) : ∃ r : RegName, b.toNat = r.val :=
  ⟨⟨b.toNat, h⟩, rfl⟩

/-! ### Register writes that undo each other -/

/-- Writing a register's own value changes nothing. -/
@[simp] theorem State.setReg_reg_self (s : State) (r : RegName) : s.setReg r (s.reg r) = s := by
  have hregs : s.regs.set r.val s.regs[r.val] = s.regs := Vector.set_getElem_self _
  exact congrArg (fun regs => { s with regs := regs }) hregs

/-- The second of two writes of one register is the one that stays. -/
@[simp] theorem State.setReg_setReg (s : State) (r : RegName) (v w : Byte) :
    (s.setReg r v).setReg r w = s.setReg r w := by
  have hregs : (s.regs.set r.val v).set r.val w = s.regs.set r.val w := Vector.set_set ..
  exact congrArg (fun regs => { s with regs := regs }) hregs

/-- An increment of SP undoes a decrement, the wrap at 0 included (R61, R62). -/
@[simp] theorem State.incSp_decSp (s : State) : s.decSp.incSp = s := by
  have hsp : s.decSp.sp + 1#8 = s.reg 7 := by
    rw [State.sp_decSp]
    exact BitVec.sub_add_cancel ..
  rw [State.incSp, hsp]
  exact (s.setReg_setReg 7 _ _).trans (s.setReg_reg_self 7)

/-- Equal register files read the same. -/
theorem State.reg_congr {s t : State} (h : t.regs = s.regs) (r : RegName) : t.reg r = s.reg r := by
  simp only [State.reg, h]

/-- From the registers a decrement of SP left, the increment gives back the old ones. -/
theorem State.incSp_regs_of_decSp {s t : State} (h : t.regs = s.decSp.regs) :
    t.incSp.regs = s.regs := by
  rw [State.incSp_regs, State.sp, State.reg_congr h, h]
  exact congrArg State.regs s.incSp_decSp

/-! ### CALL (R164) -/

/-- CALL writes R7, the return address at the new stack pointer, and pc. -/
theorem exec_call {s : State} {rA : Byte} {a : RegName} (ha : rA.toNat = a.val) :
    exec (.call rA) s = .next { s with
      regs := s.regs.set 7 s.decSp.sp
      mem := s.mem.write s.decSp.sp.toNat (BitVec.ofNat 8 (s.pc.toNat + 2))
      pc := targetPc (s.decSp.reg a) } := by
  rw [exec_of_setsPc rfl (.call ha), State.sp_decSp]
  rfl

/-- A return address inside the memory fits a byte (conflict C4). -/
theorem returnAddress_toNat {s : State} (hp : s.pc.toNat ≤ 253) :
    (BitVec.ofNat 8 (s.pc.toNat + 2)).toNat = s.pc.toNat + 2 :=
  toNat_ofNat_of_lt (show s.pc.toNat + 2 < 256 by omega)

/-! ### Two writes of one register -/

/-- Where a second instruction writes back to a register what it held before the first wrote it, the two together
leave every register as it was. -/
theorem exec_pair_restores {s : State} {i j : Instr} {r : RegName} {v : Byte} {g : State → Byte}
    (hi : Effect s i (s.setReg r v)) (hj : ∀ t, Effect t j (t.setReg r (g t)))
    (hg : ∀ t : State, (∀ q, t.reg q = (s.setReg r v).reg q) → g t = s.reg r) :
    ∃ t u : State, exec i s = .next t ∧ exec j t = .next u ∧ u.regs = s.regs := by
  refine ⟨_, _, exec_of_effect hi, exec_of_effect (hj _), ?_⟩
  rw [State.advance_regs, hg _ fun q => State.reg_advance .., State.setReg_regs, State.advance_regs]
  exact congrArg State.regs ((s.setReg_setReg r v _).trans (s.setReg_reg_self r))

/-! ### A push and a pop -/

/-- Where SP was decremented and the byte at SP is the value of the register, POP of that register leaves the
registers of before the decrement. -/
theorem pop_regs_of_push {s t : State} {r : RegName} (hregs : t.regs = s.decSp.regs)
    (hload : t.mem.read t.sp.toNat = t.reg r) :
    (t.setReg r (t.mem.read t.sp.toNat)).incSp.regs = s.regs := by
  rw [hload, State.setReg_reg_self, State.incSp_regs_of_decSp hregs]

/-! ### The obligations -/

/-- Settles O15: the next state is that of `exec_call`; a read of the memory written is `Memory.read_write`, and
the target is `State.reg_decSp`, which tells R7 from the other registers. -/
theorem callPushesReturnAddress : Obligations.CallPushesReturnAddress := by
  intro s a sp hsp
  obtain rfl : sp = s.decSp.sp := BitVec.eq_of_toNat_eq (hsp.trans s.decSp_sp_toNat.symm)
  refine ⟨decode_encode_append (.call a), fun i ha => ⟨_, exec_call ha, fun q => ?_, ?_, fun hp => ?_⟩,
    exec_of_bad_opA rfl⟩
  · rw [Memory.read_write]
  · rw [State.reg_decSp]
    rfl
  · rw [Memory.read_write_self, returnAddress_toNat hp]

/-- Settles O47: the byte POP loads is the one PUSH stored, which is what the register holds, R7 included; the
increment undoes the decrement. -/
theorem pushThenPopRestores : Obligations.PushThenPopRestores := by
  intro s a ha
  obtain ⟨r, hr⟩ := exists_regName ha
  refine ⟨_, _, exec_of_effect (.push hr), exec_of_effect (.pop hr), ?_⟩
  rw [State.advance_push, State.advance_pop]
  exact pop_regs_of_push rfl (Memory.read_write_self ..)

/-- Settles O48: RET reads the byte CALL stored, which is the return address, and the increment undoes the
decrement. -/
theorem callThenRetReturns : Obligations.CallThenRetReturns := by
  intro s a ha hp
  obtain ⟨r, hr⟩ := exists_regName ha
  refine ⟨_, _, exec_of_setsPc rfl (.call hr), exec_of_setsPc rfl .ret, ?_,
    State.incSp_regs_of_decSp rfl⟩
  have hload (v : Byte) : (s.mem.write s.decSp.sp.toNat v).read s.decSp.sp.toNat = v :=
    s.mem.read_write_self _ _
  calc (targetPc ((s.mem.write s.decSp.sp.toNat (BitVec.ofNat 8 (s.pc.toNat + 2))).read
        s.decSp.sp.toNat)).toNat
    _ = (BitVec.ofNat 8 (s.pc.toNat + 2)).toNat := by rw [hload, targetPc_toNat]
    _ = s.pc.toNat + 2 := returnAddress_toNat hp

/-- Settles O49: the second instruction of each pair computes the value the register held. -/
theorem arithmeticRoundTripsRestore : Obligations.ArithmeticRoundTripsRestore := by
  intro s a b ha hb
  obtain ⟨i, hi⟩ := exists_regName ha
  obtain ⟨j, hj⟩ := exists_regName hb
  refine ⟨exec_pair_restores (.inc hi) (fun t => .dec hi) fun t ht => ?_,
    exec_pair_restores (.dec hi) (fun t => .inc hi) fun t ht => ?_,
    fun hab => exec_pair_restores (.add hi hj) (fun t => .sub hi hj) fun t ht => ?_⟩
  · rw [ht, State.reg_setReg_self, BitVec.add_assoc]
    exact BitVec.add_zero _
  · rw [ht, State.reg_setReg_self, BitVec.add_assoc]
    exact BitVec.add_zero _
  · have hij : j ≠ i := fun e => hab (BitVec.eq_of_toNat_eq (by rw [hi, hj, e]))
    rw [ht, ht, State.reg_setReg_self, State.reg_setReg_ne _ _ hij, BitVec.add_sub_cancel]

end Sys2Proof.Machine
end

section
/-! PROOFS. The host's side (spec/20_memory.md section 7, spec/60_exceptions.md sections 4 and 6): what each move of a
session does, said once; the load port, the clock driver, and ticks on request. -/

namespace Sys2Proof.Machine

/-! ### The clock driver (R212) -/

section
variable {s t : State}

theorem State.clockStart_of_running (hr : s.run = .running) :
    s.clockStart = { s with clockOn := true } := by
  rw [State.clockStart, hr]

theorem State.clockStop_of_running (hr : s.run = .running) :
    s.clockStop = { s with clockOn := false } := by
  rw [State.clockStop, hr]

theorem State.clockStart_of_halted (hr : s.run = .halted) : s.clockStart = s := by
  rw [State.clockStart, hr]

theorem State.clockStop_of_halted (hr : s.run = .halted) : s.clockStop = s := by
  rw [State.clockStop, hr]

/-- A property that setting or clearing `clock_on` of a RUNNING state keeps is kept by start and stop. -/
theorem State.clock_keeps {P : State → Prop} (hs : P s)
    (h : s.run = .running → ∀ c, P { s with clockOn := c }) : P s.clockStart ∧ P s.clockStop := by
  cases hr : s.run with
  | running =>
    rw [State.clockStart_of_running hr, State.clockStop_of_running hr]
    exact ⟨h hr true, h hr false⟩
  | halted =>
    rw [State.clockStart_of_halted hr, State.clockStop_of_halted hr]
    exact ⟨hs, hs⟩

/-! ### Ticks on request (R94, R213) -/

/-- The state after one request is the one that `step` answers. -/
theorem State.afterStep_of_step (h : step s = .next t) : s.afterStep = some t := by
  rw [State.afterStep, h]

/-- One request, then the others. -/
theorem State.ticks_succ_of_step (h : step s = .next t) (n : Nat) : s.ticks (n + 1) = t.ticks n := by
  rw [State.ticks, h]

/-- In HALTED any number of requests changes nothing. -/
theorem State.ticks_of_halted (hr : s.run = .halted) (n : Nat) : s.ticks n = .next s := by
  induction n with
  | zero => rfl
  | succ n ih => rw [State.ticks_succ_of_step (step_of_halted hr), ih]

/-- A HALTED core runs to its halt with any fuel. -/
theorem State.runUntilHalt_of_halted (hr : s.run = .halted) (fuel : Nat) :
    s.runUntilHalt fuel = some s := by
  cases fuel with
  | zero => rw [State.runUntilHalt, hr]
  | succ n => rw [State.runUntilHalt, hr]

/-- A RUNNING core uses one unit of fuel on a tick. -/
theorem State.runUntilHalt_succ_of_step (hr : s.run = .running) (h : step s = .next t) (fuel : Nat) :
    s.runUntilHalt (fuel + 1) = t.runUntilHalt fuel := by
  simp only [State.runUntilHalt, hr, State.afterStep_of_step h]

end

/-! ### The moves of a session (R69, R220) -/

section
variable {x y : Session}

theorem Session.tick_of_halted (hr : x.core.run = .halted) : x.tick = some x := by
  rw [Session.tick, hr]

theorem Session.tick_of_running {t : State} (hr : x.core.run = .running)
    (h : Machine.step x.core = .next t) : x.tick = some { x with core := t, ticked := true } := by
  simp only [Session.tick, hr, State.afterStep_of_step h]

/-- Everything a tick request can do in a session. -/
theorem Session.tick_cases (h : x.tick = some y) :
    (x.core.run = .halted ∧ y = x) ∨
    (x.core.run = .running ∧
      ∃ t, Machine.step x.core = .next t ∧ y = { x with core := t, ticked := true }) := by
  cases hr : x.core.run with
  | halted =>
    rw [Session.tick_of_halted hr] at h
    cases h
    exact .inl ⟨rfl, rfl⟩
  | running =>
    obtain ⟨t, ht⟩ := step_next x.core
    rw [Session.tick_of_running hr ht] at h
    cases h
    exact .inr ⟨rfl, t, ht, rfl⟩

/-- A session whose load failed has no move (log 10). -/
theorem Session.move_of_loadFailed (hf : x.loadFailed = true) (mv : HostMove) : x.move mv = none :=
  if_pos hf

/-- The host's single step is a tick request. -/
theorem Session.move_step (hf : x.loadFailed = false) : x.move .step = x.tick := by
  simp [Session.move, hf]

/-- The clock's tick is a tick request, where the clock is on. -/
theorem Session.move_clockTick (hf : x.loadFailed = false) :
    x.move .clockTick = if x.core.clockOn then x.tick else none := by
  simp [Session.move, hf]

/-- What a use of the load port leaves: the memory written, and the session marked if a write raised. -/
def Session.afterLoad (x : Session) (program : List Byte) : Session :=
  { x with
    core := (x.core.load program).1
    loadFailed := (x.core.load program).2.isSome }

/-- A use of the load port takes place before the first tick, on a RUNNING core (R69). -/
theorem Session.move_load_cases {program : List Byte} (hf : x.loadFailed = false)
    (h : x.move (.load program) = some y) :
    x.ticked = false ∧ x.core.run = .running ∧ y = x.afterLoad program := by
  simp only [Session.move, hf, Bool.false_eq_true, if_false] at h
  split at h
  · cases h
  · next hopen =>
    obtain ⟨hticked, hrun⟩ := not_or.mp hopen
    refine ⟨Bool.eq_false_of_not_eq_true hticked, of_not_not hrun, ?_⟩
    split at h
    all_goals
      next hload =>
        cases h
        simp [Session.afterLoad, hload]

/-- Everything a move of the host can do. -/
theorem Session.move_cases {mv : HostMove} (h : x.move mv = some y) :
    x.loadFailed = false ∧
      ((∃ program, mv = .load program ∧ x.ticked = false ∧ x.core.run = .running ∧
          y = x.afterLoad program) ∨
        (mv = .start ∧ y = { x with core := x.core.clockStart }) ∨
        (mv = .stop ∧ y = { x with core := x.core.clockStop }) ∨
        ((mv = .clockTick ∨ mv = .step) ∧ x.tick = some y)) := by
  cases hf : x.loadFailed with
  | true =>
    rw [Session.move_of_loadFailed hf] at h
    cases h
  | false =>
    refine ⟨rfl, ?_⟩
    cases mv with
    | load program =>
      obtain ⟨hticked, hrun, rfl⟩ := Session.move_load_cases hf h
      exact .inl ⟨program, rfl, hticked, hrun, rfl⟩
    | start => exact .inr (.inl ⟨rfl, by simpa [Session.move, hf, eq_comm] using h⟩)
    | stop => exact .inr (.inr (.inl ⟨rfl, by simpa [Session.move, hf, eq_comm] using h⟩))
    | clockTick =>
      rw [Session.move_clockTick hf] at h
      split at h
      · exact .inr (.inr (.inr ⟨.inl rfl, h⟩))
      · cases h
    | step => exact .inr (.inr (.inr ⟨.inr rfl, Session.move_step hf ▸ h⟩))

end

/-! ### The load port (R69) -/

/-- A write inside the memory, then the rest of the load. -/
theorem State.loadFrom_cons_of_lt {s : State} {addr : Nat} (h : addr < 256) (b : Byte)
    (bs : List Byte) :
    s.loadFrom addr (b :: bs) =
      State.loadFrom { s with mem := s.mem.write addr b } (addr + 1) bs := by
  simp only [State.loadFrom, memWrite_of_lt h, BitVec.ofNat_toNat, BitVec.setWidth_eq]

/-- A load that fits places its bytes in a row and does not fail. -/
theorem State.loadFrom_of_le (s : State) {addr : Nat} {bs : List Byte} (h : addr + bs.length ≤ 256) :
    s.loadFrom addr bs = ({ s with mem := s.mem.placeBytes addr bs }, none) := by
  induction bs generalizing s addr with
  | nil => rfl
  | cons b bs ih =>
    rw [List.length_cons] at h
    have haddr : addr < 256 := by omega
    rw [State.loadFrom_cons_of_lt haddr, ih _ (by omega), Memory.placeBytes, if_pos haddr]

/-- A load that does not fit fails at the first address that does not exist. -/
theorem State.loadFrom_of_gt (s : State) {addr : Nat} {bs : List Byte} (ha : addr ≤ 256)
    (h : 256 < addr + bs.length) : (s.loadFrom addr bs).2 = some (.outOfBoundsMem 256) := by
  induction bs generalizing s addr with
  | nil => exact absurd ha h.not_ge
  | cons b bs ih =>
    rw [List.length_cons] at h
    rcases ha.lt_or_eq with hlt | rfl
    · rw [State.loadFrom_cons_of_lt hlt]
      exact ih _ hlt (by omega)
    · rfl

/-! ### What a move that is no tick leaves (decision D23) -/

/-- The load port closes with the first tick, no other such move touches memory, and none counts as a tick. -/
theorem Session.move_mem_ticked {x y : Session} {mv : HostMove} (h : x.move mv = some y)
    (hs : mv ≠ .step) (hc : mv ≠ .clockTick) :
    (x.ticked = true → y.core.mem = x.core.mem) ∧ y.ticked = x.ticked := by
  obtain ⟨-, ⟨program, -, hticked, -, rfl⟩ | ⟨-, rfl⟩ | ⟨-, rfl⟩ | ⟨htick | hstep, -⟩⟩ :=
    Session.move_cases h
  · exact ⟨fun h => absurd (hticked.symm.trans h) Bool.false_ne_true, rfl⟩
  · obtain ⟨c, hstart⟩ := x.core.clockStart_frame
    exact ⟨fun _ => by rw [hstart], rfl⟩
  · obtain ⟨c, hstop⟩ := x.core.clockStop_frame
    exact ⟨fun _ => by rw [hstop], rfl⟩
  · exact absurd htick hc
  · exact absurd hstep hs

/-! ### The obligations -/

/-- Settles O30: both moves are the session's tick request, which is a step of a RUNNING core and nothing in
HALTED. -/
theorem ticksTakePlaceOnlyWhenRunning : Obligations.TicksTakePlaceOnlyWhenRunning := by
  refine ⟨fun x hf => ?_, fun s hr n => State.ticks_of_halted hr n⟩
  rw [Session.move_clockTick hf, Session.move_step hf]
  refine ⟨Session.tick_of_halted, fun hr => ?_, rfl⟩
  obtain ⟨t, ht⟩ := step_next x.core
  exact ⟨_, Session.tick_of_running hr ht, ht, rfl⟩

/-- Settles O53: in RUNNING each writes its own value of `clock_on`, so the second time the same one; in HALTED
neither does anything. -/
theorem clockStartStopAreIdempotent : Obligations.ClockStartStopAreIdempotent := by
  refine fun s => ⟨fun hr => ⟨State.clockStart_of_running hr, State.clockStop_of_running hr⟩,
    fun hr => ⟨State.clockStart_of_halted hr, State.clockStop_of_halted hr⟩, ?_⟩
  cases hr : s.run with
  | running =>
    rw [State.clockStart_of_running hr, State.clockStop_of_running hr]
    exact ⟨State.clockStart_of_running hr, State.clockStop_of_running hr⟩
  | halted =>
    rw [State.clockStart_of_halted hr, State.clockStop_of_halted hr]
    exact ⟨State.clockStart_of_halted hr, State.clockStop_of_halted hr⟩

/-- Settles O54: a load is a write of each byte in a row; the write that fails is the one at 256, and the session is
then marked, which leaves it no move. -/
theorem loadPlacesProgramFromZero : Obligations.LoadPlacesProgramFromZero := by
  refine ⟨fun s program h => ?_, fun s program h => ?_, fun x y program hlong h mv => ?_⟩
  · have hfit : 0 + program.length ≤ 256 := by rwa [Nat.zero_add]
    refine ⟨_, s.loadFrom_of_le hfit, fun q => ?_, rfl⟩
    split
    · next hq => simpa using s.mem.read_placeBytes_add hfit hq
    · next hq => exact s.mem.read_placeBytes_of_outside hfit (.inr (by omega))
  · exact s.loadFrom_of_gt (Nat.zero_le _) (by rwa [Nat.zero_add])
  · obtain ⟨hf, -⟩ := Session.move_cases h
    obtain ⟨-, -, rfl⟩ := Session.move_load_cases hf h
    have hfail : (x.core.load program).2 = some (.outOfBoundsMem 256) :=
      x.core.loadFrom_of_gt (Nat.zero_le _) (by rwa [Nat.zero_add])
    exact Session.move_of_loadFailed (by rw [Session.afterLoad, hfail]; rfl) mv

/-- Settles O55: the host's other moves touch memory and `clock_on` only, and of them only the load port, which the
first tick closes, touches memory. -/
theorem hostMovesKeepCoreAndMemoryAfterFirstTick :
    Obligations.HostMovesKeepCoreAndMemoryAfterFirstTick := by
  intro x y mv h hs hc
  have hmem := Session.move_mem_ticked h hs hc
  obtain ⟨m, c, hy⟩ := Session.move_frame h hs hc
  rw [hy] at hmem ⊢
  exact ⟨rfl, rfl, rfl, rfl, rfl, rfl, hmem⟩

/-- Settles O56: by induction on the fuel, a HALTED core answering the same state to every request. -/
theorem runUntilHaltIsRepeatedTicks : Obligations.RunUntilHaltIsRepeatedTicks := by
  intro s fuel
  induction fuel generalizing s with
  | zero =>
    cases hr : s.run with
    | halted =>
      rw [State.runUntilHalt_of_halted hr]
      exact ⟨fun t ht => by cases ht; exact ⟨hr, rfl⟩, nofun⟩
    | running =>
      rw [State.runUntilHalt, hr]
      exact ⟨nofun, fun _ => ⟨s, rfl, hr⟩⟩
  | succ n ih =>
    cases hr : s.run with
    | halted =>
      rw [State.runUntilHalt_of_halted hr]
      exact ⟨fun t ht => by cases ht; exact ⟨hr, State.ticks_of_halted hr _⟩, nofun⟩
    | running =>
      obtain ⟨t, ht⟩ := step_next s
      rw [State.runUntilHalt_succ_of_step hr ht, State.ticks_succ_of_step ht]
      exact ih t

end Sys2Proof.Machine
end

section
/-! PROOFS. The run state and the clock over ticks and moves (spec/10_state.md section 5): every reachable session
meets the invariant, a tick computes the same with the clock on and off, and HALTED is entered by HLT or a fault and
never left. -/

namespace Sys2Proof.Machine

/-! ### The invariant of a session (R220, R244) -/

/-- What a session keeps: its core's invariant, and that a session whose load failed has not ticked. -/
def Session.Inv (x : Session) : Prop := x.core.Inv ∧ (x.loadFailed = true → x.ticked = false)

/-- A RUNNING core's clock may be on or off. -/
theorem State.Inv.setClock {s : State} (h : s.Inv) (hr : s.run = .running) (c : Bool) :
    State.Inv { s with clockOn := c } where
  memWf := h.memWf
  pcBound := h.pcBound
  flLegal := h.flLegal
  haltRecord := .inl ⟨hr, h.of_running hr⟩

/-- A load keeps the invariant: it writes memory only, in canonical form. -/
theorem State.Inv.load {s : State} (h : s.Inv) (program : List Byte) : (s.load program).1.Inv := by
  have hwf : (s.load program).1.mem.wf = true := State.loadFrom_wf 0 program h.memWf
  obtain ⟨m, hm⟩ : ∃ m, (s.load program).1 = { s with mem := m } := s.loadFrom_frame 0 program
  rw [hm] at hwf ⊢
  exact ⟨hwf, h.pcBound, h.flLegal, h.haltRecord⟩

/-- Every move keeps the invariant of the session. -/
theorem Session.Inv.move {x y : Session} {mv : HostMove} (hx : x.Inv) (h : x.move mv = some y) :
    y.Inv := by
  obtain ⟨hcore, hfailed⟩ := hx
  obtain ⟨hstart, hstop⟩ := State.clock_keeps hcore hcore.setClock
  obtain ⟨hf, ⟨program, -, hticked, -, rfl⟩ | ⟨-, rfl⟩ | ⟨-, rfl⟩ | ⟨-, htick⟩⟩ :=
    Session.move_cases h
  · exact ⟨hcore.load program, fun _ => hticked⟩
  · exact ⟨hstart, hfailed⟩
  · exact ⟨hstop, hfailed⟩
  · obtain ⟨-, rfl⟩ | ⟨-, t, ht, rfl⟩ := Session.tick_cases htick
    · exact ⟨hcore, hfailed⟩
    · exact ⟨hcore.step ht, fun hfail => absurd (hf.symm.trans hfail) Bool.false_ne_true⟩

/-- Every reachable session meets the invariant. -/
theorem Session.Reachable.inv {x : Session} (h : x.Reachable) : x.Inv := by
  induction h with
  | construct => exact ⟨resetMeetsInvariant, fun _ => rfl⟩
  | move mv _ hmove ih => exact ih.move hmove

/-! ### The clock and the tick (R37) -/

section
variable {s u : State} {i : Instr}

/-- No rule but that of HLT reads or writes `clock_on`. -/
theorem Effect.setClock (h : Effect s i u) (hi : i ≠ .hlt) (c : Bool) :
    Effect { s with clockOn := c } i { u with clockOn := c } := by
  cases h with
  | hlt => exact absurd rfl hi
  | ret => exact .ret
  | prn ha => exact .prn ha
  | call ha => exact .call ha
  | pop ha => exact .pop ha
  | push ha => exact .push ha
  | jmp ha => exact .jmp ha
  | jeq ha => exact .jeq ha
  | jne ha => exact .jne ha
  | inc ha => exact .inc ha
  | dec ha => exact .dec ha
  | ldi ha => exact .ldi ha
  | st ha hb => exact .st ha hb
  | cmp ha hb => exact .cmp ha hb
  | add ha hb => exact .add ha hb
  | sub ha hb => exact .sub ha hb
  | mul ha hb => exact .mul ha hb
  | div ha hb hz => exact .div ha hb hz

/-- No raise depends on `clock_on`. -/
theorem Raises.setClock {f : Fault} (h : Raises s i f) (c : Bool) :
    Raises { s with clockOn := c } i f := by
  cases h with
  | selector hsel => exact .selector hsel
  | div ha hb hz => exact .div ha hb hz

/-- The default advance does not look at `clock_on`. -/
theorem State.advance_setClock (u : State) (i : Instr) (p : PcWord) (c : Bool) :
    State.advance { u with clockOn := c } i p = { u.advance i p with clockOn := c } := by
  unfold State.advance
  split <;> rfl

/-- What `clock_on` is after a tick that ended in `t` and started with it at `c`. -/
def clockAfter (t : State) (c : Bool) : Bool := if t.run = .halted then false else c

/-- From a RUNNING core an instruction does the same with the clock on and off, and touches it only by halting. -/
theorem exec_setClock {t : State} (h : exec i s = .next t) (hr : s.run = .running) (c : Bool) :
    exec i { s with clockOn := c } = .next { t with clockOn := clockAfter t c } := by
  obtain ⟨u, hu, rfl⟩ | ⟨f, hraise, rfl⟩ := exec_cases h
  · by_cases hi : i = .hlt
    · subst hi
      cases hu
      rw [exec_hlt, State.advance_hlt]
      rfl
    · obtain ⟨hhlt, -⟩ | hsame := hu.hlt_or_sameRunState
      · exact absurd hhlt hi
      · have hrun : (u.advance i s.pc).run ≠ .halted := by
          rw [State.advance_run, hsame.1, hr]
          exact RunState.noConfusion
        rw [exec_of_effect (hu.setClock hi c), State.advance_setClock, clockAfter, if_neg hrun]
  · exact exec_of_raises (hraise.setClock c)

/-- From a RUNNING core a tick does the same with the clock on and off, and touches it only by halting. -/
theorem step_setClock {t : State} (h : step s = .next t) (hr : s.run = .running) (c : Bool) :
    step { s with clockOn := c } = .next { t with clockOn := clockAfter t c } := by
  have hfetch : fetchInstr { s with clockOn := c } = fetchInstr s := rfl
  obtain ⟨hh, -⟩ | ⟨-, i, hi, he⟩ | ⟨-, f, hf, rfl⟩ := step_cases h
  · rw [hr] at hh
    cases hh
  · rw [step_of_ok (s := { s with clockOn := c }) hr (hfetch.trans hi), exec_setClock he hr]
  · exact step_of_error hr (hfetch.trans hf)

end

/-! ### HALTED is entered by HLT or a fault, and never left (R36) -/

/-- A tick of a RUNNING core ran HLT, leaves the run state, or is the fault entry. -/
theorem step_run_cases {s t : State} (h : step s = .next t) (hr : s.run = .running) :
    (fetchInstr s = .ok .hlt ∧ t.run = .halted ∧ t.haltCause = .hlt) ∨
    (t.run = .running ∧ t.haltCause = s.haltCause) ∨
    (t.run = .halted ∧ t.haltCause = .fault ∧ t.fault.code ≠ .none) := by
  obtain ⟨hh, -⟩ | ⟨-, i, hi, he⟩ | ⟨-, f, -, rfl⟩ := step_cases h
  · rw [hr] at hh
    cases hh
  · by_cases hhlt : i = .hlt
    · subst hhlt
      rw [exec_hlt] at he
      cases he
      exact .inl ⟨hi, rfl, rfl⟩
    · obtain ⟨hrun, hcause, -⟩ | ⟨code, info, hcode, rfl⟩ := exec_sameRunState_or_faulted he hhlt
      · exact .inr (.inl ⟨hrun.trans hr, hcause⟩)
      · exact .inr (.inr ⟨rfl, rfl, hcode⟩)
  · exact .inr (.inr ⟨rfl, rfl, f.code_ne_none⟩)

/-! ### The obligations -/

/-- Settles O46: construction is the reset state, and every move keeps the invariant, a load because it writes in
canonical form and a tick because a step does. -/
theorem reachableSessionsMeetInvariant : Obligations.ReachableSessionsMeetInvariant :=
  fun _ h => h.inv

/-- Settles O36: the three outcomes of a tick of a RUNNING core, and a move of a HALTED one is nothing or, outside a
tick, touches memory and `clock_on` only. -/
theorem haltedEnteredOnlyByHltOrFault : Obligations.HaltedEnteredOnlyByHltOrFault := by
  refine ⟨rfl, rfl, fun s t hr h hh => ?_, fun s t hr h hrun => ?_, fun x y mv hh h => ?_⟩
  · obtain ⟨hfetch, -, hcause⟩ | ⟨hrun, -⟩ | ⟨-, hcause, hcode⟩ := step_run_cases h hr
    · exact .inl ⟨hfetch, hcause⟩
    · rw [hrun] at hh
      cases hh
    · exact .inr ⟨hcause, hcode⟩
  · obtain ⟨-, hh, -⟩ | ⟨-, hcause⟩ | ⟨hh, -⟩ := step_run_cases h hr
    · rw [hrun] at hh
      cases hh
    · exact hcause
    · rw [hrun] at hh
      cases hh
  · obtain ⟨-, ⟨p, -, -, hr, -⟩ | ⟨-, rfl⟩ | ⟨-, rfl⟩ | ⟨-, htick⟩⟩ := Session.move_cases h
    · rw [hr] at hh
      cases hh
    · rw [State.clockStart_of_halted hh]
      exact ⟨hh, rfl⟩
    · rw [State.clockStop_of_halted hh]
      exact ⟨hh, rfl⟩
    · rw [Session.tick_of_halted hh] at htick
      cases htick
      exact ⟨hh, rfl⟩

/-- Settles O52: no rule and no raise reads `clock_on`, and only HLT and the fault entry write it. -/
theorem clockDoesNotAffectTicks : Obligations.ClockDoesNotAffectTicks := by
  refine ⟨rfl, fun s hr => ?_, fun s t c hr h => step_setClock h hr c, fun x hoff => ?_⟩
  · rw [State.clockStart_of_running hr, State.clockStop_of_running hr]
    exact ⟨rfl, rfl⟩
  · cases hf : x.loadFailed with
    | true => exact Session.move_of_loadFailed hf _
    | false => simp [Session.move_clockTick hf, hoff]

end Sys2Proof.Machine
end

section
/-! PROOFS. The assembler text (spec/30_encoding.md section 5): every line that assembles stands for a well-formed
instruction (R100, decision D22). -/

namespace Sys2Proof.Machine

/-- The registers that have a spelling are R0 to R7 (R99). -/
theorem registerOfText_lt {cs : List Char} {b : Byte} (h : registerOfText cs = some b) :
    b.toNat < 8 := by
  unfold registerOfText at h
  split at h
  · split at h
    · split at h
      · next d hd =>
        cases h
        exact (toNat_ofNat_of_lt (hd.trans (by decide))).trans_lt hd
      · cases h
    · cases h
  · cases h

/-! ### The three shapes of a line -/

section
variable {i : Instr} {ops : List (List Char)}

/-- A line without operands, of an instruction without selectors. -/
theorem assembleNone_wellFormed {j : Instr} (hj : j.selectors = []) (h : assembleNone j ops = some i) :
    i.wellFormed = true := by
  unfold assembleNone at h
  split at h
  · cases h
    simp [wellFormed_iff, hj]
  · cases h

/-- A line of one register. -/
theorem assembleReg_wellFormed {f : Byte → Instr} (hf : ∀ x, (f x).selectors = [x])
    (h : assembleReg f ops = some i) : i.wellFormed = true := by
  unfold assembleReg at h
  split at h
  · obtain ⟨x, hx, rfl⟩ := Option.map_eq_some_iff.mp h
    simpa [wellFormed_iff, hf] using registerOfText_lt hx
  · cases h

/-- What a line of two operands gives: the first is a register, and the second reads it reads. -/
theorem assembleTwo_eq_some {second : List Char → Option Byte} {f : Byte → Byte → Instr}
    (h : assembleTwo second f ops = some i) :
    ∃ x y cs, x.toNat < 8 ∧ second cs = some y ∧ i = f x y := by
  unfold assembleTwo at h
  split at h
  · split at h
    · next hx hy =>
      cases h
      exact ⟨_, _, _, registerOfText_lt hx, hy, rfl⟩
    · cases h
  · cases h

/-- A line of two registers. -/
theorem assembleTwoReg_wellFormed {f : Byte → Byte → Instr} (hf : ∀ x y, (f x y).selectors = [x, y])
    (h : assembleTwo registerOfText f ops = some i) : i.wellFormed = true := by
  obtain ⟨x, y, cs, hx, hy, rfl⟩ := assembleTwo_eq_some h
  simpa [wellFormed_iff, hf] using And.intro hx (registerOfText_lt hy)

/-- A line of a register and an immediate, which is no selector. -/
theorem assembleLdi_wellFormed (h : assembleTwo immediateOfText .ldi ops = some i) :
    i.wellFormed = true := by
  obtain ⟨x, y, cs, hx, -, rfl⟩ := assembleTwo_eq_some h
  simpa [wellFormed_iff, Instr.selectors] using hx

end

/-! ### The obligation -/

/-- Settles O57: each mnemonic is one of the three shapes, and the only spellings of a selector are R0 to R7. -/
theorem assembledLinesAreWellFormed : Obligations.AssembledLinesAreWellFormed := by
  intro line i h
  dsimp only [assembleLine] at h
  split at h
  case h_1 | h_2 => exact assembleNone_wellFormed rfl h
  case h_3 | h_4 | h_5 | h_6 | h_7 | h_8 | h_9 | h_10 | h_11 =>
    exact assembleReg_wellFormed (fun _ => rfl) h
  case h_12 => exact assembleLdi_wellFormed h
  case h_13 | h_14 | h_15 | h_16 | h_17 | h_18 =>
    exact assembleTwoReg_wellFormed (fun _ _ => rfl) h
  case h_19 => cases h

end Sys2Proof.Machine
end
